-- ==== Sys2Proof/Word.lean ====
section
/-!
DEFINITION. The word, byte and byte-sequence types of SMCORE (00_scope.md R10, R11).
Word operations are those of `BitVec`: `^^^`, `&&&`, `|||`, `~~~` and `+`, which wraps (R12).
-/

namespace Sys2Proof

/-- A word: 32 bits, bit 0 the least significant (R10). -/
abbrev Word := BitVec 32

/-- A byte, the element of the queues and of every operand (R11). -/
abbrev Byte := BitVec 8

/-- A byte sequence, byte 0 first (R11). -/
abbrev Bytes := List Byte

end Sys2Proof
end

