-- ==== Sys2Proof/Syntax.lean ====
section
/-!
DEFINITION. The commands of SMCORE (30_encoding.md R72), one constructor per row of the opcode table, and the
host's actions on the block (30_encoding.md R85, 20_memory.md R51 and R52).
-/

namespace Sys2Proof

/-- The seventeen commands. A command word has no operand field (R70): every operand of a command is in the input
queue, so no constructor takes an argument. -/
inductive Instr where
  /-- SYS.NOP, R260 -/
  | sysNop
  /-- SYS.SRST, R261 -/
  | sysSrst
  /-- SYS.FLUSH, R262 -/
  | sysFlush
  /-- SM3.INIT, R111 -/
  | sm3Init
  /-- SM3.WRITE, R112 -/
  | sm3Write
  /-- SM3.SUM, R113 -/
  | sm3Sum
  /-- SM3.HASH, R114 -/
  | sm3Hash
  /-- SM4.SETKEY, R150 -/
  | sm4Setkey
  /-- SM4.ENC, R152 -/
  | sm4Enc
  /-- SM4.DEC, R153 -/
  | sm4Dec
  /-- SM4.ECB.ENC, R172 -/
  | sm4EcbEnc
  /-- SM4.ECB.DEC, R173 -/
  | sm4EcbDec
  /-- SM4.CBC.ENC, R174 -/
  | sm4CbcEnc
  /-- SM4.CBC.DEC, R175 -/
  | sm4CbcDec
  /-- SM2.KEYGEN, R232 -/
  | sm2Keygen
  /-- SM2.ENC, R233 -/
  | sm2Enc
  /-- SM2.DEC, R234 -/
  | sm2Dec
deriving DecidableEq, Repr, Inhabited

/-- The eight host registers of R38. The index is three bits, so every index is one of them (R263). -/
inductive HostReg where
  /-- index 0, write only, R39 -/
  | cmd
  /-- index 1, read only, R40 -/
  | result
  /-- index 2, read only, R41 -/
  | status
  /-- index 3, read only, R42 -/
  | ilen
  /-- index 4, read only, R43 -/
  | olen
  /-- index 5, write only, R44 -/
  | din
  /-- index 6, read only, its read pops, R45 -/
  | dout
  /-- index 7, read only, R46 -/
  | rngerr
deriving DecidableEq, Repr

/-- What the outside world does to the block: the host's two primitive actions (R51, R52, R85) and the reset input
(R300, R304). -/
inductive HostAction where
  /-- `W i v`: HostWrite of the value to the register (R51) -/
  | write (r : HostReg) (v : Word)
  /-- `R i`: HostRead of the register (R52) -/
  | read (r : HostReg)
  /-- the reset input is asserted and released (R300) -/
  | reset
deriving DecidableEq, Repr

end Sys2Proof
end

