-- ==== Sys2Proof/WellFormed.lean ====
section
/-!
DEFINITION. Which command words are well formed (30_encoding.md R70, R72, R73). A command has no operand field, so
there is nothing to check about a constructor of `Instr`; the checks are on the 32-bit word the host writes to CMD.
-/

namespace Sys2Proof

/-- The reserved field of a command word, bits 31:8, is all zero (R70). -/
def reservedZero (w : Word) : Bool := w.extractLsb' 8 24 == 0#24

/-- The opcode, bits 7:0, is one of those R73 lists. -/
def opcodeDefined (w : Word) : Bool :=
  let o := (w.extractLsb' 0 8).toNat
  o ≤ 0x02 || (0x10 ≤ o && o ≤ 0x13) || (0x20 ≤ o && o ≤ 0x26) || (0x30 ≤ o && o ≤ 0x32)

/-- A word is a command when both checks pass; every other word is illegal (R73). -/
def wellFormedWord (w : Word) : Bool := reservedZero w && opcodeDefined w

/-- Every command is well formed: R70 gives it no prefix, no immediate and no register field. -/
def Instr.wellFormed (_ : Instr) : Bool := true

end Sys2Proof
end

