-- ==== Sys2Proof/Decode.lean ====
section
/-!
DEFINITION. Decoding a command word, total on every 32-bit word and rejecting by name, and the encoder, both from
the opcode map of 30_encoding.md R72; the indices of the host registers, from 10_state.md R38.
-/

namespace Sys2Proof

/-- Why a word is illegal (R73). -/
inductive IllegalWord where
  /-- bits 31:8 are not all zero -/
  | reservedBits
  /-- bits 31:8 are zero and bits 7:0 are no opcode of R72 -/
  | undefinedOpcode
deriving DecidableEq, Repr

/-- Field RSV of a command word, bits 31:8 (R70). -/
def rsvField (w : Word) : BitVec 24 := w.extractLsb' 8 24

/-- Field OPC of a command word, bits 7:0 (R70). -/
def opcField (w : Word) : Byte := w.extractLsb' 0 8

/-- The opcode map read from opcode to command (R72). -/
def decodeOpcode (o : Byte) : Option Instr :=
  match o.toNat with
  | 0x00 => some .sysNop
  | 0x01 => some .sysSrst
  | 0x02 => some .sysFlush
  | 0x10 => some .sm3Init
  | 0x11 => some .sm3Write
  | 0x12 => some .sm3Sum
  | 0x13 => some .sm3Hash
  | 0x20 => some .sm4Setkey
  | 0x21 => some .sm4Enc
  | 0x22 => some .sm4Dec
  | 0x23 => some .sm4EcbEnc
  | 0x24 => some .sm4EcbDec
  | 0x25 => some .sm4CbcEnc
  | 0x26 => some .sm4CbcDec
  | 0x30 => some .sm2Keygen
  | 0x31 => some .sm2Enc
  | 0x32 => some .sm2Dec
  | _ => none

/-- Decoding a word written to CMD: the command, or the name of what makes it illegal (R70, R72, R73). -/
def decode (w : Word) : Except IllegalWord Instr :=
  if rsvField w = 0#24 then
    match decodeOpcode (opcField w) with
    | some i => .ok i
    | none => .error .undefinedOpcode
  else .error .reservedBits

/-- The opcode map read from command to opcode (R72). -/
def opcode : Instr → Byte
  | .sysNop => 0x00#8
  | .sysSrst => 0x01#8
  | .sysFlush => 0x02#8
  | .sm3Init => 0x10#8
  | .sm3Write => 0x11#8
  | .sm3Sum => 0x12#8
  | .sm3Hash => 0x13#8
  | .sm4Setkey => 0x20#8
  | .sm4Enc => 0x21#8
  | .sm4Dec => 0x22#8
  | .sm4EcbEnc => 0x23#8
  | .sm4EcbDec => 0x24#8
  | .sm4CbcEnc => 0x25#8
  | .sm4CbcDec => 0x26#8
  | .sm2Keygen => 0x30#8
  | .sm2Enc => 0x31#8
  | .sm2Dec => 0x32#8

/-- The command word of a command: RSV zero, OPC its opcode (R70, R72). -/
def encode (i : Instr) : Word := (opcode i).setWidth 32

/-- The index of a host register (R38). -/
def HostReg.index : HostReg → BitVec 3
  | .cmd => 0
  | .result => 1
  | .status => 2
  | .ilen => 3
  | .olen => 4
  | .din => 5
  | .dout => 6
  | .rngerr => 7

/-- The host register with an index; all eight indices are defined (R38, R263). -/
def HostReg.ofIndex (i : BitVec 3) : HostReg :=
  match i.toNat with
  | 0 => .cmd
  | 1 => .result
  | 2 => .status
  | 3 => .ilen
  | 4 => .olen
  | 5 => .din
  | 6 => .dout
  | _ => .rngerr

/-- What the decoder reads from an instruction of the opcode table whose `nbits` bits are `w`, every higher bit
being zero. A command word has 32 bits (R70); a number that does not fit them is no word. -/
def decodeTableWord (nbits w : Nat) : Option Instr :=
  let v := w % 2 ^ nbits
  if v < 2 ^ 32 then
    match decode (BitVec.ofNat 32 v) with
    | .ok i => some i
    | .error _ => none
  else none

end Sys2Proof
end

