-- ==== Sys2Proof/Machine/Bytes.lean ====
section
/-!
DEFINITION. Word operations that have no `BitVec` name, byte sequences, and the big-endian conversions
(00_scope.md R11, R12, R13; 20_memory.md R57).
-/

namespace Sys2Proof.Machine

/-- `rol(a, n)` for `0 ≤ n ≤ 31`: rotate left by n bits (R12). For n = 0 the right shift by 32 gives zero. -/
def rol (a : Word) (n : Nat) : Word := (a <<< n) ||| (a >>> (32 - n))

/-- The bytes `a, a + 1, …, a + n - 1` of a sequence (R11), those that exist. -/
def slice (s : Bytes) (a n : Nat) : Bytes := (s.drop a).take n

/-- XOR of two byte sequences of equal length (R11). -/
def xorBytes (s t : Bytes) : Bytes := List.zipWith (· ^^^ ·) s t

/-- `B2I(s)`: the integer a byte sequence encodes, big-endian (R13). -/
def b2i (s : Bytes) : Nat := s.foldl (fun n b => n * 256 + b.toNat) 0

/-- The n bytes, most significant first, of `x mod 256^n`. -/
def i2b : Nat → Nat → Bytes
  | 0, _ => []
  | n + 1, x => BitVec.ofNat 8 (x / 256 ^ n) :: i2b n x

/-- `I2B32(x)`: the 32-byte big-endian encoding of an integer below 2^256 (R13, R84). -/
def i2b32 (x : Nat) : Bytes := i2b 32 x

/-- `BE32(w)`: the four bytes of a word, most significant first (R13). -/
def wordBytes (w : Word) : Bytes := i2b 4 w.toNat

/-- `be32(s)` for a sequence of four bytes (R13). -/
def bytesWord (s : Bytes) : Word := BitVec.ofNat 32 (b2i s)

/-- `BE64(v)`: the eight bytes of a 64-bit value, most significant first (R13). -/
def be64 (v : BitVec 64) : Bytes := i2b 8 v.toNat

end Sys2Proof.Machine
end

