-- ==== Sys2Proof/Machine/Params.lean ====
section
/-!
DEFINITION. The constants of the three engines, as the spec gives them (40_sm3_hash.md R100, R101; 41_sm4_cipher.md
R140, R147, R148; 43_sm2_field_curve.md R208). They hold their values from reset release and nothing writes them
(R30, R31, R302), so they are definitions and not fields of State.
-/

namespace Sys2Proof.Machine

/-- The initial vector of the hash (R100). -/
def sm3IV : Vector Word 8 :=
  #v[0x7380166f#32, 0x4914b2b9#32, 0x172442d7#32, 0xda8a0600#32,
     0xa96f30bc#32, 0x163138aa#32, 0xe38dee4d#32, 0xb0fb0e4e#32]

/-- The two round-constant bases of the hash (R101). -/
def tBase (j : Nat) : Word := if j ≤ 15 then 0x79cc4519#32 else 0x7a879d8a#32

/-- Rows 0 to 7 of the substitution table (R140). -/
def sboxRowsLow : List (List Nat) := [
  [0xd6, 0x90, 0xe9, 0xfe, 0xcc, 0xe1, 0x3d, 0xb7, 0x16, 0xb6, 0x14, 0xc2, 0x28, 0xfb, 0x2c, 0x05],
  [0x2b, 0x67, 0x9a, 0x76, 0x2a, 0xbe, 0x04, 0xc3, 0xaa, 0x44, 0x13, 0x26, 0x49, 0x86, 0x06, 0x99],
  [0x9c, 0x42, 0x50, 0xf4, 0x91, 0xef, 0x98, 0x7a, 0x33, 0x54, 0x0b, 0x43, 0xed, 0xcf, 0xac, 0x62],
  [0xe4, 0xb3, 0x1c, 0xa9, 0xc9, 0x08, 0xe8, 0x95, 0x80, 0xdf, 0x94, 0xfa, 0x75, 0x8f, 0x3f, 0xa6],
  [0x47, 0x07, 0xa7, 0xfc, 0xf3, 0x73, 0x17, 0xba, 0x83, 0x59, 0x3c, 0x19, 0xe6, 0x85, 0x4f, 0xa8],
  [0x68, 0x6b, 0x81, 0xb2, 0x71, 0x64, 0xda, 0x8b, 0xf8, 0xeb, 0x0f, 0x4b, 0x70, 0x56, 0x9d, 0x35],
  [0x1e, 0x24, 0x0e, 0x5e, 0x63, 0x58, 0xd1, 0xa2, 0x25, 0x22, 0x7c, 0x3b, 0x01, 0x21, 0x78, 0x87],
  [0xd4, 0x00, 0x46, 0x57, 0x9f, 0xd3, 0x27, 0x52, 0x4c, 0x36, 0x02, 0xe7, 0xa0, 0xc4, 0xc8, 0x9e]]

/-- Rows 8 to 15 of the substitution table (R140). -/
def sboxRowsHigh : List (List Nat) := [
  [0xea, 0xbf, 0x8a, 0xd2, 0x40, 0xc7, 0x38, 0xb5, 0xa3, 0xf7, 0xf2, 0xce, 0xf9, 0x61, 0x15, 0xa1],
  [0xe0, 0xae, 0x5d, 0xa4, 0x9b, 0x34, 0x1a, 0x55, 0xad, 0x93, 0x32, 0x30, 0xf5, 0x8c, 0xb1, 0xe3],
  [0x1d, 0xf6, 0xe2, 0x2e, 0x82, 0x66, 0xca, 0x60, 0xc0, 0x29, 0x23, 0xab, 0x0d, 0x53, 0x4e, 0x6f],
  [0xd5, 0xdb, 0x37, 0x45, 0xde, 0xfd, 0x8e, 0x2f, 0x03, 0xff, 0x6a, 0x72, 0x6d, 0x6c, 0x5b, 0x51],
  [0x8d, 0x1b, 0xaf, 0x92, 0xbb, 0xdd, 0xbc, 0x7f, 0x11, 0xd9, 0x5c, 0x41, 0x1f, 0x10, 0x5a, 0xd8],
  [0x0a, 0xc1, 0x31, 0x88, 0xa5, 0xcd, 0x7b, 0xbd, 0x2d, 0x74, 0xd0, 0x12, 0xb8, 0xe5, 0xb4, 0xb0],
  [0x89, 0x69, 0x97, 0x4a, 0x0c, 0x96, 0x77, 0x7e, 0x65, 0xb9, 0xf1, 0x09, 0xc5, 0x6e, 0xc6, 0x84],
  [0x18, 0xf0, 0x7d, 0xec, 0x3a, 0xdc, 0x4d, 0x20, 0x79, 0xee, 0x5f, 0x3e, 0xd7, 0xcb, 0x39, 0x48]]

/-- The rows of the substitution table, row 0 first (R140). -/
def sboxRows : List (List Nat) := sboxRowsLow ++ sboxRowsHigh

/-- `SBOX[16·r + c]`, the entry in row r, column c (R140). -/
def sbox (a : Byte) : Byte :=
  BitVec.ofNat 8 ((sboxRows.getD (a.toNat / 16) []).getD (a.toNat % 16) 0)

/-- The four system constants `FK[0..3]` (R147). -/
def sm4FK : List Word := [0xa3b1bac6#32, 0x56aa3350#32, 0x677d9197#32, 0xb27022dc#32]

/-- Byte j of the per-round constant `CK[i]`: `(7·(4i + j)) mod 256` (R148). -/
def ckByte (i j : Nat) : Byte := BitVec.ofNat 8 (7 * (4 * i + j))

/-- The per-round constant `CK[i]`, byte 0 most significant (R148). -/
def sm4CK (i : Nat) : Word := ckByte i 0 ++ ckByte i 1 ++ ckByte i 2 ++ ckByte i 3

/-- The prime modulus P (R208). -/
def curveP : Nat := 0xFFFFFFFEFFFFFFFFFFFFFFFFFFFFFFFFFFFFFFFF00000000FFFFFFFFFFFFFFFF

/-- The curve coefficient A = P - 3 (R208). -/
def curveA : Nat := 0xFFFFFFFEFFFFFFFFFFFFFFFFFFFFFFFFFFFFFFFF00000000FFFFFFFFFFFFFFFC

/-- The curve coefficient B (R208). -/
def curveB : Nat := 0x28E9FA9E9D9F5E344D5A9E4BCF6509A7F39789F515AB8F92DDBCBD414D940E93

/-- The order N of the base point (R208). -/
def curveN : Nat := 0xFFFFFFFEFFFFFFFFFFFFFFFFFFFFFFFF7203DF6B21C6052B53BBF40939D54123

/-- The x coordinate of the base point (R208). -/
def curveGX : Nat := 0x32C4AE2C1F1981195F9904466A39C9948FE30BBFF2660BE1715A4589334C74C7

/-- The y coordinate of the base point (R208). -/
def curveGY : Nat := 0xBC3736A2F4F6779C59BDCEE36B692153D0A9877CC62A474002DF32E52139F0A0

end Sys2Proof.Machine
end

