-- ==== Sys2Proof/Config.lean ====
section
/-!
DEFINITION. What an implementation fixes (IQ_BYTES, 00_scope.md R9) and the free values: the answers of the random
source past those the environment has listed (60_exceptions.md R292, R293) and the two values the field and curve
rules leave undefined (43_sm2_field_curve.md R204, R209). The opaque constants have no body: nothing can be proved
of them but what their types say.
-/

namespace Sys2Proof

/-- A scalar the random source may answer: `1 ≤ k ≤ N - 1` (R293). -/
structure Scalar where
  val : Nat
  pos : 1 ≤ val
  lt : val < Machine.curveN
deriving DecidableEq, Repr

/-- The answer of the random source to a draw: a failure with a 32-bit code, or a value (R292, R293). -/
inductive RngAnswer (α : Type) where
  | fail (code : Word)
  | ok (value : α)
deriving DecidableEq, Repr, Inhabited

/-- By how much the capacity of the input queue exceeds its least value 256 (R9); any number up to
`2^32 - 34 - 256`. -/
opaque Config.iqSpare : Fin 4294967007

/-- `IQ_BYTES`, the capacity of the input queue: `256 ≤ IQ_BYTES ≤ 2^32 - 34`, otherwise unknown (R9). -/
def Config.iqBytes : Nat := Config.iqSpare.val + 256

/-- `OQ_BYTES = IQ_BYTES + 33` (R9, R50). -/
def Config.oqBytes : Nat := Config.iqBytes + 33

/-- FREE VALUE. What the random source answers to an RngBytes(16) draw, by the number of draws made before it. -/
opaque Config.ivAnswer : Nat → RngAnswer (Vector Byte 16)

/-- FREE VALUE. What the random source answers to an RngScalar() draw, by the number of draws made before it. -/
opaque Config.scalarAnswer : Nat → RngAnswer Scalar

/-- FREE VALUE. `finv(0)`, which R204 leaves undefined and no rule evaluates. -/
opaque Config.finvOfZero : Nat

/-- FREE VALUE. The x coordinate of the point at infinity, which R209 says it does not have. -/
opaque Config.infX : Nat

/-- FREE VALUE. The y coordinate of the point at infinity, which R209 says it does not have. -/
opaque Config.infY : Nat

end Sys2Proof
end

