-- ==== Sys2Proof/Machine/State.lean ====
section
/-!
DEFINITION. The state of SMCORE (10_state.md R20 to R49, 20_memory.md R50 to R54), the environment that drives it
(the host and the random source, 00_scope.md R19), its value after reset (R49, R300), and the reasons a step can
stop.
-/

namespace Sys2Proof.Machine

/-- A hash context (V, BUF, FILL, LEN) (R20 to R24, R110). FILL reaches 64 only inside SM3.WRITE, where the block is
compressed at once, so between commands it is 0..63 (R23). -/
structure HashCtx where
  v : Vector Word 8
  buf : Vector Byte 64
  fill : Fin 64
  len : BitVec 64
deriving DecidableEq, Repr

/-- A fresh hash context (R110 `New()`), also the reset value of H (R49). -/
def HashCtx.new : HashCtx := { v := sm3IV, buf := Vector.replicate 64 0#8, fill := 0, len := 0 }

/-- The cipher instance C: the two round-key arrays and the valid flag (R26, R27). -/
structure Cipher where
  rke : Vector Word 32
  rkd : Vector Word 32
  keyv : Bool
deriving DecidableEq, Repr

/-- The cipher instance before any key is loaded: KEYV = 0 (R27, R49). DESIGN CHOICE, safe: the round keys hold zero
while KEYV = 0, where R28 lets a model hold any value and no command can observe them (log 4). -/
def Cipher.unkeyed : Cipher :=
  { rke := Vector.replicate 32 0#32, rkd := Vector.replicate 32 0#32, keyv := false }

/-- The engine state S that a command's semantic function reads and writes: H and C (R16, R71). PE keeps none
(R32). -/
structure Engine where
  h : HashCtx
  c : Cipher
deriving DecidableEq, Repr

/-- The thirteen result codes (R270). -/
inductive ResultCode where
  | ok
  | illegalCmd
  | keyLength
  | blockLength
  | dataLength
  | badPadding
  | noKey
  | invalidKey
  | truncatedInput
  | invalidPoint
  | authFailure
  | rng
  | inputOverflow
deriving DecidableEq, Repr

/-- What a failing command raises: one of the twelve error codes (R271 to R282); E_RNG carries the failure code of
the draw (R281). -/
inductive Failure where
  | illegalCmd
  | keyLength
  | blockLength
  | dataLength
  | badPadding
  | noKey
  | invalidKey
  | truncatedInput
  | invalidPoint
  | authFailure
  | rng (code : Word)
  | inputOverflow
deriving DecidableEq, Repr

/-- The random source as the environment's plain data: the answers it will give to the next draws of each kind, next
first, and how many draws have been made. Past the end of a list the answer is free (`Config.ivAnswer`,
`Config.scalarAnswer` at the draw's number). DESIGN CHOICE (log 3). -/
structure Rng where
  ivs : List (RngAnswer (Vector Byte 16))
  scalars : List (RngAnswer Scalar)
  draws : Nat
deriving DecidableEq, Repr

/-- The host's side of the register port: the accesses it has still to issue, next first (log 1), and the value its
latest HostRead returned (`reg_rdata` of R68, log 2). -/
structure HostPort where
  agenda : List HostAction
  rdata : Word
deriving DecidableEq, Repr

/-- The state: the core's (`eng` to `busy`) and the environment's (`rng`, `host`). -/
structure State where
  /-- H and C -/
  eng : Engine
  /-- the input queue, its head the byte pushed first (R53) -/
  iq : Bytes
  /-- the output queue, its head the byte popped next (R54) -/
  oq : Bytes
  /-- IOVF (R36) -/
  iovf : Bool
  /-- RESULT (R37) -/
  result : ResultCode
  /-- RNGERR (R46) -/
  rngerr : Word
  /-- the input of the SM2.ENC whose retry loop has not ended, if there is one (R233, R312) -/
  busy : Option Bytes
  /-- the random source -/
  rng : Rng
  /-- the host -/
  host : HostPort
deriving DecidableEq, Repr

/-- The machine right after reset (R49, R300), with a host that issues nothing and no listed answer of the random
source (DESIGN CHOICE, log 10). -/
def State.reset : State :=
  { eng := { h := HashCtx.new, c := Cipher.unkeyed }
    iq := []
    oq := []
    iovf := false
    result := .ok
    rngerr := 0
    busy := none
    rng := { ivs := [], scalars := [], draws := 0 }
    host := { agenda := [], rdata := 0 } }

/-- No reason to stop exists: every access has a defined outcome in every state (R73, R263, R290, and 70_reset_and_hazards.md
section 3, "nothing is undefined behaviour"). Nobody raises a fault, which is safe. -/
inductive Fault where
deriving DecidableEq, Repr

/-- Why an instruction has no meaning. -/
inductive Refusal where
  /-- Raised by an arm of `exec` whose instruction has no meaning in this model yet. Safe: the model stops. -/
  | notModelled (mnemonic : String)
deriving DecidableEq, Repr

/-- What a step of this machine answers. -/
abbrev Result := Host.Outcome State Fault Refusal

end Sys2Proof.Machine
end

