-- ==== Sys2Proof/Machine/Flags.lean ====
section
/-!
DEFINITION. The flags and codes a host reads: the numbers of the result codes (60_exceptions.md R270), the STATUS
word (10_state.md R41) and the two queue lengths (R42, R43). The block has no arithmetic flag (R35).
-/

namespace Sys2Proof.Machine

/-- The code of a result (R270). -/
def ResultCode.byte : ResultCode → Byte
  | .ok => 0x00#8
  | .illegalCmd => 0x01#8
  | .keyLength => 0x02#8
  | .blockLength => 0x03#8
  | .dataLength => 0x04#8
  | .badPadding => 0x05#8
  | .noKey => 0x06#8
  | .invalidKey => 0x07#8
  | .truncatedInput => 0x08#8
  | .invalidPoint => 0x09#8
  | .authFailure => 0x0A#8
  | .rng => 0x0B#8
  | .inputOverflow => 0x0C#8

/-- The result code of a failure (R271 to R282). -/
def Failure.code : Failure → ResultCode
  | .illegalCmd => .illegalCmd
  | .keyLength => .keyLength
  | .blockLength => .blockLength
  | .dataLength => .dataLength
  | .badPadding => .badPadding
  | .noKey => .noKey
  | .invalidKey => .invalidKey
  | .truncatedInput => .truncatedInput
  | .invalidPoint => .invalidPoint
  | .authFailure => .authFailure
  | .rng _ => .rng
  | .inputOverflow => .inputOverflow

/-- What a failure leaves in RNGERR, given what it holds: the code of the failed draw for E_RNG, else no change
(R46, R281, R288). -/
def Failure.rngerr : Failure → Word → Word
  | .rng code, _ => code
  | _, old => old

/-- RESULT as the host reads it: bits 7:0 the code, bits 31:8 zero (R40). -/
def State.resultWord (s : State) : Word := s.result.byte.setWidth 32

/-- STATUS as the host reads it: bit 0 KEYV, bit 1 IOVF, bits 31:2 zero (R41). -/
def State.statusWord (s : State) : Word :=
  (if s.eng.c.keyv then 1#32 else 0#32) ||| (if s.iovf then 2#32 else 0#32)

/-- ILEN: the number of bytes in the input queue (R42). -/
def State.ilenWord (s : State) : Word := BitVec.ofNat 32 s.iq.length

/-- OLEN: the number of bytes in the output queue (R43). -/
def State.olenWord (s : State) : Word := BitVec.ofNat 32 s.oq.length

end Sys2Proof.Machine
end

