-- ==== Sys2Proof/Machine/Ops.lean ====
section
/-!
DEFINITION. The shared operations: the queues (20_memory.md R53, R54; 10_state.md R44, R45), the draws of the random
source (60_exceptions.md R292, R293), ending a command with an error (R288), the command wrapper (30_encoding.md R71)
and the reset state (70_reset_and_hazards.md R300).
-/

namespace Sys2Proof.Machine

/-- Push a byte: it joins the tail of IQ if there is room, else it is discarded and IOVF is set (R44, R36). -/
def State.push (b : Byte) (s : State) : State :=
  if s.iq.length < Config.iqBytes then { s with iq := s.iq ++ [b] } else { s with iovf := true }

/-- What a read of DOUT returns: the head of OQ zero-extended, or 0 when OQ is empty (R45). -/
def State.doutWord (s : State) : Word := (s.oq.headD 0#8).setWidth 32

/-- What a read of DOUT does: it removes the head of OQ, if there is one (R45). -/
def State.pop (s : State) : State := { s with oq := s.oq.tail }

/-- RngBytes(16): the source's answer and the source after it (R292). -/
def Rng.drawIv (r : Rng) : RngAnswer (Vector Byte 16) × Rng :=
  match r.ivs with
  | a :: rest => (a, { r with ivs := rest, draws := r.draws + 1 })
  | [] => (Config.ivAnswer r.draws, { r with draws := r.draws + 1 })

/-- RngScalar(): the source's answer and the source after it (R293). -/
def Rng.drawScalar (r : Rng) : RngAnswer Scalar × Rng :=
  match r.scalars with
  | a :: rest => (a, { r with scalars := rest, draws := r.draws + 1 })
  | [] => (Config.scalarAnswer r.draws, { r with draws := r.draws + 1 })

/-- `raise E(code)`: ending a command with an error (R288). It writes RESULT and, for E_RNG, RNGERR; nothing else.
There is no return from an error to perform: the core is ready for the next command (R290). -/
def State.raise (f : Failure) (s : State) : State :=
  { s with result := f.code, rngerr := f.rngerr s.rngerr }

/-- What the wrapper does at the start of every command but SYS.NOP: it takes the whole of IQ, discards what OQ
holds and clears IOVF (R71). The input taken and the old IOVF are those of the state before. -/
def State.takeInput (s : State) : State := { s with iq := [], oq := [], iovf := false }

/-- The end of a command's semantic function (R16): success with the new engine state and the output, a failure, or,
for SM2.ENC only, one more pass of its retry loop on the same input (R233). -/
inductive OpResult where
  | ok (eng : Engine) (out : Bytes)
  | fail (f : Failure)
  | retry (inp : Bytes)
deriving DecidableEq, Repr

/-- A command's semantic function `op(in, S, rng)` (R16), with the random source after its draws. -/
abbrev Op := Bytes → Engine → Rng → OpResult × Rng

/-- The last lines of the wrapper (R71): on success S and OQ are written and RESULT is 0x00; on failure the error is
raised; before another pass of the retry loop nothing is written and the command stays in progress. -/
def State.finish (r : OpResult) (s : State) : State :=
  match r with
  | .ok eng out => { s with eng := eng, oq := out, result := .ok }
  | .fail f => s.raise f
  | .retry inp => { s with busy := some inp }

/-- Run a command's semantic function on its input and write its outcome (R71). -/
def State.apply (op : Op) (inp : Bytes) (s : State) : State :=
  let r := op inp s.eng s.rng
  { s with rng := r.2 }.finish r.1

/-- The wrapper around a data command (R71): take the input; fail with E_INPUT_OVERFLOW if IOVF was set, without
looking at the input; else run the command. -/
def runCommand (op : Op) (s : State) : Result :=
  .next (if s.iovf then s.takeInput.raise .inputOverflow else s.takeInput.apply op s.iq)

/-- The wrapper around an illegal word (R71, R73, R271): IQ and OQ emptied, IOVF cleared, E_ILLEGAL_CMD raised. -/
def runIllegal (s : State) : Result := .next (s.takeInput.raise .illegalCmd)

/-- Every element of the core at its reset value (R49, R300). The environment, the host and the random source, is
outside SMCORE (R48) and keeps what it holds. -/
def State.resetCore (s : State) : State :=
  { State.reset with rng := s.rng, host := s.host }

/-- HostRead(i): the value it returns (R52). A write-only register reads as 0 (R38). -/
def State.readValue (r : HostReg) (s : State) : Word :=
  match r with
  | .cmd => 0
  | .result => s.resultWord
  | .status => s.statusWord
  | .ilen => s.ilenWord
  | .olen => s.olenWord
  | .din => 0
  | .dout => s.doutWord
  | .rngerr => s.rngerr

/-- HostRead(i): only the read of DOUT changes the core; the value goes to the host (R52). -/
def State.hostRead (r : HostReg) (s : State) : State :=
  let t := match r with
    | .dout => s.pop
    | _ => s
  { t with host := { t.host with rdata := s.readValue r } }

end Sys2Proof.Machine
end

