-- ==== Sys2Proof/Machine/CipherEngine.lean ====
section
/-!
DEFINITION. The cipher engine CE: tables, key schedule, block transform (41_sm4_cipher.md R140 to R155) and the
meanings of SM4.SETKEY, SM4.ENC and SM4.DEC.
-/

namespace Sys2Proof.Machine

/-- The byte substitution τ, S-box per byte (R141). -/
def tau (x : Word) : Word :=
  sbox (x.extractLsb' 24 8) ++ sbox (x.extractLsb' 16 8) ++ sbox (x.extractLsb' 8 8) ++ sbox (x.extractLsb' 0 8)

/-- The linear diffusion L of the block transform (R142). -/
def diffL (b : Word) : Word := b ^^^ rol b 2 ^^^ rol b 10 ^^^ rol b 18 ^^^ rol b 24

/-- The linear diffusion LK of the key schedule (R143). -/
def diffLK (b : Word) : Word := b ^^^ rol b 13 ^^^ rol b 23

/-- T, the transform of the block transform (R144). -/
def sm4T (x : Word) : Word := diffL (tau x)

/-- TKS, the transform of the key schedule (R144). -/
def sm4TKS (x : Word) : Word := diffLK (tau x)

/-- The substituted byte at byte position p of an otherwise zero word: `SBOX[a] · 2^(24 - 8p)` (R145). -/
def sboxAt (a : Byte) (p : Nat) : Word := (sbox a).setWidth 32 <<< (24 - 8 * p)

/-- The lookup table entry `TE[a][p]` (R145). R146 lets a model compute T without it. -/
def tableTE (a : Byte) (p : Nat) : Word := diffL (sboxAt a p)

/-- The lookup table entry `TK[a][p]` (R146). -/
def tableTK (a : Byte) (p : Nat) : Word := diffLK (sboxAt a p)

/-- Four words, the window the cipher works on: X0..X3 of the block transform, K0..K3 of the key schedule (R29). -/
structure Quad where
  x0 : Word
  x1 : Word
  x2 : Word
  x3 : Word
deriving DecidableEq, Repr

/-- The four big-endian words of 16 bytes (R149, R151). -/
def Quad.ofBytes (s : Bytes) : Quad :=
  { x0 := bytesWord (slice s 0 4), x1 := bytesWord (slice s 4 4),
    x2 := bytesWord (slice s 8 4), x3 := bytesWord (slice s 12 4) }

/-- The key words seeded with the system constants (R149). -/
def keySeed (key : Bytes) : Quad :=
  let k := Quad.ofBytes key
  { x0 := k.x0 ^^^ sm4FK.getD 0 0, x1 := k.x1 ^^^ sm4FK.getD 1 0,
    x2 := k.x2 ^^^ sm4FK.getD 2 0, x3 := k.x3 ^^^ sm4FK.getD 3 0 }

/-- Round i of the key schedule: the window moves by one and its new last word is `rk[i]` (R149). -/
def keyRound (i : Nat) (k : Quad) : Quad :=
  { x0 := k.x1, x1 := k.x2, x2 := k.x3, x3 := k.x0 ^^^ sm4TKS (k.x1 ^^^ k.x2 ^^^ k.x3 ^^^ sm4CK i) }

/-- The window after n rounds of the key schedule (R149). -/
def keyWindow (key : Bytes) : Nat → Quad
  | 0 => keySeed key
  | n + 1 => keyRound n (keyWindow key n)

/-- `KeyExpand(key)[i]` (R149). -/
def roundKey (key : Bytes) (i : Nat) : Word := (keyWindow key (i + 1)).x3

/-- `KeyExpand(key)`, `rk[0]` first (R149). -/
def keyExpand (key : Bytes) : List Word := (List.range 32).map (roundKey key)

/-- One round of the block transform: T acts on the other three words and the round key (R151). -/
def cryptRound (x : Quad) (rk : Word) : Quad :=
  { x0 := x.x1, x1 := x.x2, x2 := x.x3, x3 := x.x0 ^^^ sm4T (x.x1 ^^^ x.x2 ^^^ x.x3 ^^^ rk) }

/-- The output: the four final words in reverse order (R151). -/
def Quad.reverseBytes (x : Quad) : Bytes := wordBytes x.x3 ++ wordBytes x.x2 ++ wordBytes x.x1 ++ wordBytes x.x0

/-- `Crypt(rk, blk)`, the block transform (R151). -/
def crypt (rk : List Word) (blk : Bytes) : Bytes := (rk.foldl cryptRound (Quad.ofBytes blk)).reverseBytes

/-- The cipher instance of a key: RKE the round keys, RKD their reverse, KEYV = 1 (R150, R26). -/
def Cipher.ofKey (key : Bytes) : Cipher :=
  { rke := ⟨(keyExpand key).toArray, by simp [keyExpand]⟩
    rkd := ⟨(keyExpand key).reverse.toArray, by simp [keyExpand]⟩
    keyv := true }

/-- SM4.SETKEY's semantic function: the length check first, then the schedule (R150). -/
def opSm4Setkey : Op := fun inp eng rng =>
  (if inp.length ≠ 16 then .fail .keyLength else .ok { eng with c := Cipher.ofKey inp } [], rng)

/-- SM4.ENC's semantic function (R152). -/
def opSm4Enc : Op := fun inp eng rng =>
  (if eng.c.keyv = false then .fail .noKey
   else if inp.length ≠ 16 then .fail .blockLength
   else .ok eng (crypt eng.c.rke.toList inp), rng)

/-- SM4.DEC's semantic function (R153). -/
def opSm4Dec : Op := fun inp eng rng =>
  (if eng.c.keyv = false then .fail .noKey
   else if inp.length ≠ 16 then .fail .blockLength
   else .ok eng (crypt eng.c.rkd.toList inp), rng)

/-- SM4.SETKEY (R150). -/
def execSm4Setkey (s : State) : Result := runCommand opSm4Setkey s

/-- SM4.ENC (R152). -/
def execSm4Enc (s : State) : Result := runCommand opSm4Enc s

/-- SM4.DEC (R153). -/
def execSm4Dec (s : State) : Result := runCommand opSm4Dec s

end Sys2Proof.Machine
end

