-- ==== Sys2Proof/Machine/Operands.lean ====
section
/-!
DEFINITION. The operand layouts of the commands in the input queue and the data formats (30_encoding.md R75 to R84).
The commands of HE, SM4.SETKEY and the SM4 data commands take the whole input as it is (R75 to R79); the layouts with
fields are those of SM2.ENC and SM2.DEC.
-/

namespace Sys2Proof.Machine

/-- The i-th 16-byte block of a sequence (R78, R79). -/
def block (s : Bytes) (i : Nat) : Bytes := slice s (16 * i) 16

/-- The whole 16-byte blocks of a sequence, in order (R78, R79). -/
def blocks (s : Bytes) : List Bytes := (List.range (s.length / 16)).map (block s)

/-- SM2.ENC: the X coordinate of the public point, bytes 0..31 (R81). -/
def encQx (inp : Bytes) : Nat := b2i (slice inp 0 32)

/-- SM2.ENC: the Y coordinate of the public point, bytes 32..63 (R81). -/
def encQy (inp : Bytes) : Nat := b2i (slice inp 32 32)

/-- SM2.ENC: the plaintext, bytes 64..n-1 (R81). -/
def encPlain (inp : Bytes) : Bytes := inp.drop 64

/-- SM2.DEC: the private scalar, bytes 0..31 (R82). -/
def decScalar (inp : Bytes) : Nat := b2i (slice inp 0 32)

/-- SM2.DEC: the ciphertext, bytes 32..n-1 (R82). -/
def decCipher (inp : Bytes) : Bytes := inp.drop 32

/-- Ciphertext: the point-format marker `c[0]` (R83). -/
def ctMarker (c : Bytes) : Byte := c.headD 0#8

/-- Ciphertext: the X coordinate of C1, `c[1..33)` (R83). -/
def ctX (c : Bytes) : Nat := b2i (slice c 1 32)

/-- Ciphertext: the Y coordinate of C1, `c[33..65)` (R83). -/
def ctY (c : Bytes) : Nat := b2i (slice c 33 32)

/-- Ciphertext: the tag C3, `c[65..97)` (R83). -/
def ctC3 (c : Bytes) : Bytes := slice c 65 32

/-- Ciphertext: the masked message C2, `c[97..|c|)` (R83). -/
def ctC2 (c : Bytes) : Bytes := c.drop 97

/-- The layout of a ciphertext: marker 0x04, X, Y, C3, C2 (R83). -/
def ciphertext (x y : Nat) (c3 c2 : Bytes) : Bytes := [0x04#8] ++ i2b32 x ++ i2b32 y ++ c3 ++ c2

/-- The output layout of SM2.KEYGEN: the scalar, X, Y (R80). -/
def keyPair (d x y : Nat) : Bytes := i2b32 d ++ i2b32 x ++ i2b32 y

end Sys2Proof.Machine
end

