-- ==== Sys2Proof/Machine/CipherModes.lean ====
section
/-!
DEFINITION. The mode controllers of CE: the pad, ECB and CBC (42_sm4_modes.md R170 to R177) and the meanings of
SM4.ECB.ENC, SM4.ECB.DEC, SM4.CBC.ENC and SM4.CBC.DEC.
-/

namespace Sys2Proof.Machine

/-- `Pad16(p)`: N bytes of value N, `N = 16 - (|p| mod 16)` (R170). -/
def pad16 (p : Bytes) : Bytes :=
  let n := 16 - p.length % 16
  p ++ List.replicate n (BitVec.ofNat 8 n)

/-- `Unpad(q)`: remove as many trailing bytes as the last byte says; none when it fails (R171). -/
def unpad (q : Bytes) : Option Bytes :=
  match q.getLast? with
  | none => none
  | some n => if n.toNat > q.length then none else some (q.take (q.length - n.toNat))

/-- ECB: every block through the block transform on its own (R172, R173). -/
def ecb (rk : List Word) (bs : List Bytes) : Bytes := bs.flatMap (crypt rk)

/-- CBC encryption of the blocks after the ciphertext block `prev` (R174). -/
def cbcEncBlocks (rk : List Word) : Bytes → List Bytes → Bytes
  | _, [] => []
  | prev, q :: rest =>
    let c := crypt rk (xorBytes q prev)
    c ++ cbcEncBlocks rk c rest

/-- CBC decryption of the blocks after the ciphertext block `prev` (R175). -/
def cbcDecBlocks (rk : List Word) : Bytes → List Bytes → Bytes
  | _, [] => []
  | prev, c :: rest => xorBytes (crypt rk c) prev ++ cbcDecBlocks rk c rest

/-- The end of ECB and CBC decryption: the pad removed, or E_BAD_PADDING (R173, R175). -/
def unpadResult (eng : Engine) (q : Bytes) : OpResult :=
  match unpad q with
  | none => .fail .badPadding
  | some p => .ok eng p

/-- SM4.ECB.ENC's semantic function (R172). -/
def opSm4EcbEnc : Op := fun inp eng rng =>
  (if eng.c.keyv = false then .fail .noKey
   else .ok eng (ecb eng.c.rke.toList (blocks (pad16 inp))), rng)

/-- SM4.ECB.DEC's semantic function (R173). -/
def opSm4EcbDec : Op := fun inp eng rng =>
  (if eng.c.keyv = false then .fail .noKey
   else if inp.length % 16 ≠ 0 then .fail .dataLength
   else unpadResult eng (ecb eng.c.rkd.toList (blocks inp)), rng)

/-- SM4.CBC.ENC after its draw: the failure passed on verbatim, or IV and chained blocks (R174). -/
def cbcEncResult (eng : Engine) (inp : Bytes) : RngAnswer (Vector Byte 16) → OpResult
  | .fail code => .fail (.rng code)
  | .ok iv => .ok eng (iv.toList ++ cbcEncBlocks eng.c.rke.toList iv.toList (blocks (pad16 inp)))

/-- SM4.CBC.ENC's semantic function: the draw is made only with a key loaded (R174). -/
def opSm4CbcEnc : Op := fun inp eng rng =>
  if eng.c.keyv = false then (.fail .noKey, rng)
  else
    let d := rng.drawIv
    (cbcEncResult eng inp d.1, d.2)

/-- SM4.CBC.DEC's semantic function (R175). -/
def opSm4CbcDec : Op := fun inp eng rng =>
  (if eng.c.keyv = false then .fail .noKey
   else if inp.length < 16 then .fail .dataLength
   else if inp.length % 16 ≠ 0 then .fail .dataLength
   else unpadResult eng (cbcDecBlocks eng.c.rkd.toList (inp.take 16) (blocks (inp.drop 16))), rng)

/-- SM4.ECB.ENC (R172). -/
def execSm4EcbEnc (s : State) : Result := runCommand opSm4EcbEnc s

/-- SM4.ECB.DEC (R173). -/
def execSm4EcbDec (s : State) : Result := runCommand opSm4EcbDec s

/-- SM4.CBC.ENC (R174). -/
def execSm4CbcEnc (s : State) : Result := runCommand opSm4CbcEnc s

/-- SM4.CBC.DEC (R175). -/
def execSm4CbcDec (s : State) : Result := runCommand opSm4CbcDec s

end Sys2Proof.Machine
end

