-- ==== Sys2Proof/Machine/Hash.lean ====
section
/-!
DEFINITION. The hash engine HE (40_sm3_hash.md R100 to R118) and the meanings of SM3.INIT, SM3.WRITE, SM3.SUM and
SM3.HASH.
-/

namespace Sys2Proof.Machine

/-- The round constant `TR(j)` (R101). -/
def tr (j : Nat) : Word := rol (tBase j) (j % 32)

/-- FF: parity in rounds 0..15, majority in rounds 16..63 (R102). -/
def ff (j : Nat) (x y z : Word) : Word :=
  if j ≤ 15 then x ^^^ y ^^^ z else (x &&& y) ||| (x &&& z) ||| (y &&& z)

/-- GG: parity in rounds 0..15, choice in rounds 16..63 (R103). -/
def gg (j : Nat) (x y z : Word) : Word :=
  if j ≤ 15 then x ^^^ y ^^^ z else (x &&& y) ||| (~~~x &&& z)

/-- The permutation P0 (R104). -/
def p0 (x : Word) : Word := x ^^^ rol x 9 ^^^ rol x 17

/-- The permutation P1 (R105). -/
def p1 (x : Word) : Word := x ^^^ rol x 15 ^^^ rol x 23

/-- The 16 big-endian words of a block, `W[0..15]` (R106). -/
def blockWords (b : Bytes) : List Word := (List.range 16).map fun i => bytesWord (slice b (4 * i) 4)

/-- `W[j]` from the words before it, newest first, so that `W[j-k]` is entry k - 1 (R106). -/
def nextWord (rev : List Word) : Word :=
  let w (k : Nat) : Word := rev.getD (k - 1) 0
  p1 (w 16 ^^^ w 9 ^^^ rol (w 3) 15) ^^^ rol (w 13) 7 ^^^ w 6

/-- n more expanded words, newest first (R106). -/
def expandWords : Nat → List Word → List Word
  | 0, rev => rev
  | n + 1, rev => expandWords n (nextWord rev :: rev)

/-- The 68 expanded words `W[0..67]` of a block (R106). -/
def expansion (b : Bytes) : List Word := (expandWords 52 (blockWords b).reverse).reverse

/-- The 64 words `W1[j] = W[j] ^ W[j+4]` (R106). -/
def expansion1 (w : List Word) : List Word := List.zipWith (· ^^^ ·) w (w.drop 4)

/-- The eight working registers of the compression (R25). -/
structure HashRegs where
  a : Word
  b : Word
  c : Word
  d : Word
  e : Word
  f : Word
  g : Word
  h : Word
deriving DecidableEq, Repr

/-- One round (R107). -/
def hashRound (j : Nat) (w w1 : Word) (r : HashRegs) : HashRegs :=
  let ss1 := rol (rol r.a 12 + r.e + tr j) 7
  let ss2 := ss1 ^^^ rol r.a 12
  let tt1 := ff j r.a r.b r.c + r.d + ss2 + w1
  let tt2 := gg j r.e r.f r.g + r.h + ss1 + w
  { a := tt1, b := r.a, c := rol r.b 9, d := r.c, e := p0 tt2, f := r.e, g := rol r.f 19, h := r.g }

/-- The registers a block starts from: the chaining value (R108). -/
def hashRegs (v : Vector Word 8) : HashRegs :=
  { a := v[0], b := v[1], c := v[2], d := v[3], e := v[4], f := v[5], g := v[6], h := v[7] }

/-- Rounds 0 to 63 in order (R108). -/
def hashRounds (w w1 : List Word) (r : HashRegs) : HashRegs :=
  (List.range 64).foldl (fun r j => hashRound j (w.getD j 0) (w1.getD j 0) r) r

/-- The compression function `CF(V, B)` with its feed-forward (R108). -/
def cf (v : Vector Word 8) (b : Bytes) : Vector Word 8 :=
  let w := expansion b
  let r := hashRounds w (expansion1 w) (hashRegs v)
  #v[r.a ^^^ v[0], r.b ^^^ v[1], r.c ^^^ v[2], r.d ^^^ v[3],
     r.e ^^^ v[4], r.f ^^^ v[5], r.g ^^^ v[6], r.h ^^^ v[7]]

/-- k, the number of zero bytes of the padding: `(55 - L) mod 64` (R109). -/
def padZeros (len : BitVec 64) : Nat := (119 - len.toNat % 64) % 64

/-- `Pad(L)`: 0x80, k zero bytes, the bit length as eight bytes (R109). -/
def hashPad (len : BitVec 64) : Bytes :=
  [0x80#8] ++ List.replicate (padZeros len) 0#8 ++ be64 (8#64 * len)

/-- One byte of `Absorb` (R110): into BUF at FILL; a full buffer is compressed and FILL returns to 0. -/
def HashCtx.absorbByte (ctx : HashCtx) (b : Byte) : HashCtx :=
  let buf := ctx.buf.set ctx.fill.val b ctx.fill.isLt
  if h : ctx.fill.val + 1 < 64 then { ctx with buf := buf, fill := ⟨ctx.fill.val + 1, h⟩ }
  else { ctx with v := cf ctx.v buf.toList, buf := buf, fill := 0 }

/-- `Absorb(ctx, s)`: every byte in order, LEN untouched (R110). -/
def HashCtx.absorb (ctx : HashCtx) (s : Bytes) : HashCtx := s.foldl HashCtx.absorbByte ctx

/-- `Update(ctx, s)`: absorb, then add the length to LEN modulo 2^64 (R110). -/
def HashCtx.update (ctx : HashCtx) (s : Bytes) : HashCtx :=
  { ctx.absorb s with len := ctx.len + BitVec.ofNat 64 s.length }

/-- The digest format: the eight chaining words, each big-endian (R75). -/
def digestBytes (v : Vector Word 8) : Bytes := v.toList.flatMap wordBytes

/-- `Finalize(ctx)`, on a copy (R115). -/
def HashCtx.finalize (ctx : HashCtx) : Bytes := digestBytes (ctx.absorb (hashPad ctx.len)).v

/-- `SM3(m)`, in a scratch context (R115, R47). -/
def sm3 (m : Bytes) : Bytes := (HashCtx.new.update m).finalize

/-- SM3.INIT's semantic function: H becomes a fresh context; the input is discarded (R111). -/
def opSm3Init : Op := fun _ eng rng => (.ok { eng with h := HashCtx.new } [], rng)

/-- SM3.WRITE's semantic function: the input extends the message in H (R112). -/
def opSm3Write : Op := fun inp eng rng => (.ok { eng with h := eng.h.update inp } [], rng)

/-- SM3.SUM's semantic function: the digest of H, which stays open; the input is discarded (R113). -/
def opSm3Sum : Op := fun _ eng rng => (.ok eng eng.h.finalize, rng)

/-- SM3.HASH's semantic function: the digest of the input, H untouched (R114). -/
def opSm3Hash : Op := fun inp eng rng => (.ok eng (sm3 inp), rng)

/-- SM3.INIT (R111). -/
def execSm3Init (s : State) : Result := runCommand opSm3Init s

/-- SM3.WRITE (R112). -/
def execSm3Write (s : State) : Result := runCommand opSm3Write s

/-- SM3.SUM (R113). -/
def execSm3Sum (s : State) : Result := runCommand opSm3Sum s

/-- SM3.HASH (R114). -/
def execSm3Hash (s : State) : Result := runCommand opSm3Hash s

end Sys2Proof.Machine
end

