-- ==== Sys2Proof/Machine/Curve.lean ====
section
/-!
DEFINITION. The public-key engine PE's arithmetic: the prime field and the curve (43_sm2_field_curve.md R200 to R216).
A field element is a number below P and every field function answers one (R200); scalars are numbers (R205).
-/

namespace Sys2Proof.Machine

/-- Field addition (R201). -/
def fadd (x y : Nat) : Nat := (x + y) % curveP

/-- Field subtraction (R202). -/
def fsub (x y : Nat) : Nat := (x + (curveP - y)) % curveP

/-- Field negation (R202). -/
def fneg (x : Nat) : Nat := (curveP - x) % curveP

/-- Field multiplication (R203). -/
def fmul (x y : Nat) : Nat := (x * y) % curveP

/-- Square and multiply over bits n - 1 down to 0 of the exponent. -/
def fpowBits (x e : Nat) : Nat → Nat → Nat
  | 0, acc => acc
  | n + 1, acc =>
    let sq := fmul acc acc
    fpowBits x e n (if e.testBit n then fmul sq x else sq)

/-- `x^e mod P` for a 256-bit exponent. -/
def fpow (x e : Nat) : Nat := fpowBits x e 256 1

/-- Field inversion: `x^(P-2) mod P` for x ≠ 0 (R204). R204 leaves `finv(0)` undefined and no rule evaluates it: a
free value (log 8). -/
def finv (x : Nat) : Nat := if x = 0 then Config.finvOfZero % curveP else fpow x (curveP - 2)

/-- A point: the point at infinity, or a pair of coordinates (R209). -/
inductive Point where
  | inf
  | affine (x y : Nat)
deriving DecidableEq, Repr

/-- `Q.x`. INF has no coordinates (R209): a free value (log 7). -/
def Point.x : Point → Nat
  | .inf => Config.infX
  | .affine x _ => x

/-- `Q.y`. INF has no coordinates (R209): a free value (log 7). -/
def Point.y : Point → Nat
  | .inf => Config.infY
  | .affine _ y => y

/-- The base point G (R209). -/
def baseG : Point := .affine curveGX curveGY

/-- `OnCurve(x, y)` for two numbers below 2^256: both below P and on the curve (R210). -/
def onCurve (x y : Nat) : Bool :=
  x < curveP && y < curveP && fmul y y == fadd (fadd (fmul (fmul x x) x) (fmul curveA x)) curveB

/-- The third point of the line of slope `lam` through points with x coordinates x1 and x2, negated (R211, last
three lines). -/
def chord (lam x1 y1 x2 : Nat) : Point :=
  let x3 := fsub (fsub (fmul lam lam) x1) x2
  .affine x3 (fsub (fmul lam (fsub x1 x3)) y1)

/-- `PointAdd(Q1, Q2)` (R211). -/
def pointAdd (q1 q2 : Point) : Point :=
  match q1, q2 with
  | .inf, q => q
  | q, .inf => q
  | .affine x1 y1, .affine x2 y2 =>
    if x1 = x2 then
      if fadd y1 y2 = 0 then .inf
      else chord (fmul (fadd (fmul 3 (fmul x1 x1)) curveA) (finv (fmul 2 y1))) x1 y1 x2
    else chord (fmul (fsub y2 y1) (finv (fsub x2 x1))) x1 y1 x2

/-- `PointDouble(Q) = PointAdd(Q, Q)` (R212). -/
def pointDouble (q : Point) : Point := pointAdd q q

/-- Double and add over bits n - 1 down to 0 of k (R214). -/
def scalarMulBits (k : Nat) (q : Point) : Nat → Point → Point
  | 0, r => r
  | n + 1, r =>
    let d := pointDouble r
    scalarMulBits k q n (if k.testBit n then pointAdd d q else d)

/-- `ScalarMul(k, Q)` for `0 ≤ k < 2^256`: the sum of k copies of Q (R213), by the reference algorithm (R214). -/
def scalarMul (k : Nat) (q : Point) : Point := scalarMulBits k q 256 .inf

end Sys2Proof.Machine
end

