-- ==== Sys2Proof/Machine/Scheme.lean ====
section
/-!
DEFINITION. The SM2 scheme: key derivation, tag (44_sm2_scheme.md R230 to R238) and the meanings of SM2.KEYGEN,
SM2.ENC and SM2.DEC.
-/

namespace Sys2Proof.Machine

/-- The digest of `seed ‖ BE32(ct)`, one block of the key derivation (R230). -/
def kdfBlock (seed : Bytes) (ct : Nat) : Bytes := sm3 (seed ++ wordBytes (BitVec.ofNat 32 ct))

/-- `KDF(seed, L)`: the blocks for counters 1, 2, …, ⌈L/32⌉, cut to L bytes (R230). -/
def kdf (seed : Bytes) (len : Nat) : Bytes :=
  ((List.range ((len + 31) / 32)).flatMap fun i => kdfBlock seed (i + 1)).take len

/-- The seed of the KDF in this scheme: the coordinates of the shared point, X first (R231). -/
def kdfSeed (s : Point) : Bytes := i2b32 s.x ++ i2b32 s.y

/-- The keystream of the shared point for a message of `len` bytes (R231, R233, R234). -/
def keystream (s : Point) (len : Nat) : Bytes := kdf (kdfSeed s) len

/-- `Tag(S, m)` (R235). -/
def tag (s : Point) (m : Bytes) : Bytes := sm3 (i2b32 s.x ++ m ++ i2b32 s.y)

/-- `AllZero(t)`: at least one byte, and every byte zero (R236). -/
def allZero (t : Bytes) : Bool := !t.isEmpty && t.all (· == 0#8)

/-- SM2.KEYGEN after its draw (R232). -/
def keygenResult (eng : Engine) : RngAnswer Scalar → OpResult
  | .fail code => .fail (.rng code)
  | .ok d =>
    let q := scalarMul d.val baseG
    .ok eng (keyPair d.val q.x q.y)

/-- SM2.KEYGEN's semantic function: one draw; the input is discarded (R232). -/
def opSm2Keygen : Op := fun _ eng rng =>
  let d := rng.drawScalar
  (keygenResult eng d.1, d.2)

/-- SM2.ENC's loop body and the steps after it, for a public point, a plaintext and an ephemeral scalar (R233):
the ciphertext, or none when the keystream is all zero and the loop repeats. -/
def encryptWith (q : Point) (m : Bytes) (k : Nat) : Option Bytes :=
  let c1 := scalarMul k baseG
  let s := scalarMul k q
  let t := keystream s m.length
  if allZero t then none else some (ciphertext c1.x c1.y (tag s m) (xorBytes m t))

/-- SM2.ENC after its checks and the draw of one pass (R233). -/
def encResult (eng : Engine) (inp : Bytes) : RngAnswer Scalar → OpResult
  | .fail code => .fail (.rng code)
  | .ok k =>
    match encryptWith (.affine (encQx inp) (encQy inp)) (encPlain inp) k.val with
    | none => .retry inp
    | some out => .ok eng out

/-- SM2.ENC's semantic function, one pass of its loop (R233). When the keystream is all zero the command stays in
progress and the next step makes the next pass, with a new draw (log 6). -/
def opSm2Enc : Op := fun inp eng rng =>
  if inp.length < 64 then (.fail .invalidKey, rng)
  else if onCurve (encQx inp) (encQy inp) = false then (.fail .invalidKey, rng)
  else
    let d := rng.drawScalar
    (encResult eng inp d.1, d.2)

/-- SM2.DEC's steps 4 to 7 for the shared point and the ciphertext (R234). -/
def decryptWith (eng : Engine) (s : Point) (c : Bytes) : OpResult :=
  let m := xorBytes (ctC2 c) (keystream s (ctC2 c).length)
  if tag s m ≠ ctC3 c then .fail .authFailure else .ok eng m

/-- SM2.DEC after step 3: a shared point at infinity is E_INVALID_KEY (R234). -/
def decResult (eng : Engine) (c : Bytes) (s : Point) : OpResult :=
  match s with
  | .inf => .fail .invalidKey
  | .affine x y => decryptWith eng (.affine x y) c

/-- SM2.DEC's semantic function (R234). -/
def opSm2Dec : Op := fun inp eng rng =>
  (if inp.length < 129 then .fail .truncatedInput
   else
    let c := decCipher inp
    if ctMarker c ≠ 0x04#8 then .fail .invalidPoint
    else if onCurve (ctX c) (ctY c) = false then .fail .invalidPoint
    else decResult eng c (scalarMul (decScalar inp) (.affine (ctX c) (ctY c))), rng)

/-- SM2.KEYGEN (R232). -/
def execSm2Keygen (s : State) : Result := runCommand opSm2Keygen s

/-- SM2.ENC (R233). -/
def execSm2Enc (s : State) : Result := runCommand opSm2Enc s

/-- SM2.DEC (R234). -/
def execSm2Dec (s : State) : Result := runCommand opSm2Dec s

/-- The next pass of an SM2.ENC whose retry loop has not ended, on the input it took (R233, R312). -/
def retryPass (inp : Bytes) (s : State) : State := { s with busy := none }.apply opSm2Enc inp

end Sys2Proof.Machine
end

