-- ==== Sys2Proof/Machine/System.lean ====
section
/-!
DEFINITION. The system commands SYS.NOP, SYS.SRST and SYS.FLUSH (45_system.md R260 to R262).
-/

namespace Sys2Proof.Machine

/-- SYS.NOP: nothing changes, not even RESULT (R260). -/
def execSysNop (s : State) : Result := .next s

/-- SYS.SRST: the state of hardware reset; it succeeds even when IOVF was set (R261, R301). -/
def execSysSrst (s : State) : Result := .next s.resetCore

/-- SYS.FLUSH: both queues emptied, IOVF cleared, RESULT = 0x00; it succeeds even when IOVF was set (R262). -/
def execSysFlush (s : State) : Result := .next { s.takeInput with result := .ok }

end Sys2Proof.Machine
end

