-- ==== Sys2Proof/Machine/Dispatch.lean ====
section
/-!
DEFINITION. One arm per command (30_encoding.md R72): exec runs the meaning of each.
-/

namespace Sys2Proof.Machine

def exec (i : Instr) (s : State) : Host.Outcome State Fault Refusal :=
  match i with
  | .sysNop => Sys2Proof.Machine.execSysNop s
  | .sysSrst => Sys2Proof.Machine.execSysSrst s
  | .sysFlush => Sys2Proof.Machine.execSysFlush s
  | .sm3Init => Sys2Proof.Machine.execSm3Init s
  | .sm3Write => Sys2Proof.Machine.execSm3Write s
  | .sm3Sum => Sys2Proof.Machine.execSm3Sum s
  | .sm3Hash => Sys2Proof.Machine.execSm3Hash s
  | .sm4Setkey => Sys2Proof.Machine.execSm4Setkey s
  | .sm4Enc => Sys2Proof.Machine.execSm4Enc s
  | .sm4Dec => Sys2Proof.Machine.execSm4Dec s
  | .sm4EcbEnc => Sys2Proof.Machine.execSm4EcbEnc s
  | .sm4EcbDec => Sys2Proof.Machine.execSm4EcbDec s
  | .sm4CbcEnc => Sys2Proof.Machine.execSm4CbcEnc s
  | .sm4CbcDec => Sys2Proof.Machine.execSm4CbcDec s
  | .sm2Keygen => Sys2Proof.Machine.execSm2Keygen s
  | .sm2Enc => Sys2Proof.Machine.execSm2Enc s
  | .sm2Dec => Sys2Proof.Machine.execSm2Dec s

end Sys2Proof.Machine
end

