-- ==== Sys2Proof/Machine/Port.lean ====
section
/-!
DEFINITION. The register port: what a HostWrite does (20_memory.md R51) and the execution of a command word
(30_encoding.md R71). HostRead is in Ops.
-/

namespace Sys2Proof.Machine

/-- `Exec(w)`: a write of the word w to CMD runs the command w encodes; an illegal word runs as a failing command
(R71, R73). -/
def execWord (w : Word) (s : State) : Result :=
  match decode w with
  | .ok i => exec i s
  | .error _ => runIllegal s

/-- HostWrite(i, v): CMD executes the word, DIN pushes its low byte, a write to a read-only register is ignored
(R51, R38, R44). -/
def hostWrite (r : HostReg) (v : Word) (s : State) : Result :=
  match r with
  | .cmd => execWord v s
  | .din => .next (s.push (v.extractLsb' 0 8))
  | .result => .next s
  | .status => .next s
  | .ilen => .next s
  | .olen => .next s
  | .dout => .next s
  | .rngerr => .next s

/-- The state once the host's next access is taken from its list. -/
def State.withAgenda (as : List HostAction) (s : State) : State := { s with host := { s.host with agenda := as } }

end Sys2Proof.Machine
end

