-- ==== Sys2Proof/Machine/Step.lean ====
section
/-!
DEFINITION. One step: one event of the outside world, handled to completion (20_memory.md R51, R52, R60, R63), or,
while an SM2.ENC has not left its retry loop, one more pass of it (44_sm2_scheme.md R233).
-/

namespace Sys2Proof.Machine

/-- One step. A reset is handled at once, in the middle of the retry loop too (R300, R304). While a command is in
progress the host's next access waits and the loop makes its next pass (R63, R312). Otherwise the host's next access
is made; a host with none leaves the core idle (R303). -/
def step (s : State) : Host.Outcome State Fault Refusal :=
  match s.host.agenda, s.busy with
  | .reset :: rest, _ => .next (s.withAgenda rest).resetCore
  | _, some inp => .next (retryPass inp s)
  | .write r v :: rest, none => hostWrite r v (s.withAgenda rest)
  | .read r :: rest, none => .next ((s.withAgenda rest).hostRead r)
  | [], none => .next s

/-- The state in which the very next step runs the instruction whose `nbits` table bits are `w`: the host's next
access writes that word to CMD, and no command is in progress. This stands for the host deciding to issue it: the
block itself holds no program (R34, log 10). -/
def State.withFetchWord (s : State) (nbits w : Nat) : State :=
  { s with
    busy := none
    host := { s.host with agenda := .write .cmd (BitVec.ofNat 32 (w % 2 ^ nbits)) :: s.host.agenda } }

end Sys2Proof.Machine
end

