-- ==== Sys2Proof/Machine/HostProgram.lean ====
section
/-!
DEFINITION. The notation of host programs (30_encoding.md R85 to R87): the encoding of the primitive actions, the
expansions of the pseudo-actions, and the oracle directive.
-/

namespace Sys2Proof.Machine

/-- The direction of a primitive action: `W` or `R` (R85). -/
inductive Direction where
  | w
  | r
deriving DecidableEq, Repr

/-- `PUSH <bytes>`: one write of DIN per byte, in order (R86). -/
def pushActions (bs : Bytes) : List HostAction := bs.map fun b => .write .din (b.setWidth 32)

/-- `CMD <mnemonic>`: the command's word written to CMD (R86). -/
def cmdActions (i : Instr) : List HostAction := [.write .cmd (encode i)]

/-- `POP <k>`: k reads of DOUT (R86). -/
def popActions (k : Nat) : List HostAction := List.replicate k (.read .dout)

/-- A state with a host program to run. -/
def State.withProgram (s : State) (as : List HostAction) : State := { s with host := { s.host with agenda := as } }

/-- `RNG: <answers>`: what the random source answers to the next draws of each kind (R87). -/
def State.withAnswers (s : State) (ivs : List (RngAnswer (Vector Byte 16))) (scalars : List (RngAnswer Scalar)) :
    State :=
  { s with rng := { s.rng with ivs := ivs, scalars := scalars } }

end Sys2Proof.Machine

namespace Sys2Proof

/-- The encoding of a primitive action: direction, index, and for a write the value (R85). A reset is no action of
the host and has none. -/
def HostAction.code : HostAction → Option (Machine.Direction × BitVec 3 × Option Word)
  | .write r v => some (.w, r.index, some v)
  | .read r => some (.r, r.index, none)
  | .reset => none

end Sys2Proof
end

