-- ==== Sys2Proof/Safety.lean ====
section
/-!
DEFINITION. The terms claims about the machine are stated in: the invariant of the state, and the groups of commands
the rules speak of. Every step of every state is safe in the sense that none stops the machine; the invariant says
which states the machine is meant to be in.
-/

namespace Sys2Proof.Machine

/-- n steps from a state. -/
def run : Nat → State → Result
  | 0, s => .next s
  | n + 1, s =>
    match step s with
    | .next t => run n t
    | .fault f => .fault f
    | .refused r => .refused r

/-- `FILL = LEN mod 64` (R23). -/
def HashCtx.wf (ctx : HashCtx) : Prop := ctx.fill.val = ctx.len.toNat % 64

/-- `RKD[i] = RKE[31 - i]` for every i whenever KEYV = 1 (R26). -/
def Cipher.wf (c : Cipher) : Prop := c.keyv = true → c.rkd.toList = c.rke.toList.reverse

/-- An SM2.ENC in its retry loop holds an input that passed the command's checks and fits the input queue, and the
queues and IOVF are as the wrapper left them, since the host waits (R71, R233, R63). -/
structure State.BusyWf (s : State) (inp : Bytes) : Prop where
  long : 64 ≤ inp.length
  short : inp.length ≤ Config.iqBytes
  valid : onCurve (encQx inp) (encQy inp) = true
  iq : s.iq = []
  oq : s.oq = []
  iovf : s.iovf = false

/-- The invariant of the state: the queues are within their capacities (R53, R54), the hash context and the cipher
instance are well formed (R23, R26), and so is a command in progress. -/
structure State.Inv (s : State) : Prop where
  iq : s.iq.length ≤ Config.iqBytes
  oq : s.oq.length ≤ Config.oqBytes
  hash : s.eng.h.wf
  cipher : s.eng.c.wf
  busy : ∀ inp, s.busy = some inp → s.BusyWf inp

end Sys2Proof.Machine

namespace Sys2Proof

/-- The commands that consume input and so fail when IOVF was set: all but the system commands (R282, R283). -/
def Instr.isData : Instr → Bool
  | .sysNop => false
  | .sysSrst => false
  | .sysFlush => false
  | .sm3Init => true
  | .sm3Write => true
  | .sm3Sum => true
  | .sm3Hash => true
  | .sm4Setkey => true
  | .sm4Enc => true
  | .sm4Dec => true
  | .sm4EcbEnc => true
  | .sm4EcbDec => true
  | .sm4CbcEnc => true
  | .sm4CbcDec => true
  | .sm2Keygen => true
  | .sm2Enc => true
  | .sm2Dec => true

/-- The six data commands of CE, which need a loaded key (R276). -/
def Instr.needsKey : Instr → Bool
  | .sysNop => false
  | .sysSrst => false
  | .sysFlush => false
  | .sm3Init => false
  | .sm3Write => false
  | .sm3Sum => false
  | .sm3Hash => false
  | .sm4Setkey => false
  | .sm4Enc => true
  | .sm4Dec => true
  | .sm4EcbEnc => true
  | .sm4EcbDec => true
  | .sm4CbcEnc => true
  | .sm4CbcDec => true
  | .sm2Keygen => false
  | .sm2Enc => false
  | .sm2Dec => false

/-- The commands that draw from the random source (R294). -/
def Instr.usesRng : Instr → Bool
  | .sysNop => false
  | .sysSrst => false
  | .sysFlush => false
  | .sm3Init => false
  | .sm3Write => false
  | .sm3Sum => false
  | .sm3Hash => false
  | .sm4Setkey => false
  | .sm4Enc => false
  | .sm4Dec => false
  | .sm4EcbEnc => false
  | .sm4EcbDec => false
  | .sm4CbcEnc => true
  | .sm4CbcDec => false
  | .sm2Keygen => true
  | .sm2Enc => true
  | .sm2Dec => false

/-- The codes other than 0x00 and 0x0C that a command can give, the table of R283. -/
def Instr.errorCodes : Instr → List Machine.ResultCode
  | .sysNop => []
  | .sysSrst => []
  | .sysFlush => []
  | .sm3Init => []
  | .sm3Write => []
  | .sm3Sum => []
  | .sm3Hash => []
  | .sm4Setkey => [.keyLength]
  | .sm4Enc => [.noKey, .blockLength]
  | .sm4Dec => [.noKey, .blockLength]
  | .sm4EcbEnc => [.noKey]
  | .sm4EcbDec => [.noKey, .dataLength, .badPadding]
  | .sm4CbcEnc => [.noKey, .rng]
  | .sm4CbcDec => [.noKey, .dataLength, .badPadding]
  | .sm2Keygen => [.rng]
  | .sm2Enc => [.invalidKey, .rng]
  | .sm2Dec => [.truncatedInput, .invalidPoint, .invalidKey, .authFailure]

end Sys2Proof
end

