-- ==== Sys2Proof/Certificates/Slice0/Obligations.lean ====
section
/-!
DEFINITION. The statements for the provers, in the order of OBLIGATIONS.json.
-/

open Sys2Proof Sys2Proof.Machine

/-! ### Encoding -/

/-- 30_encoding.md section 1: the word of a command decodes to that command, for every command. -/
def Obligations.EncodedCommandDecodesToItself : Prop :=
  ∀ i : Instr, i.wellFormed = true → decode (encode i) = .ok i

/-- 30_encoding.md section 1: the whole word is compared, so no second word decodes to a command. -/
def Obligations.DecodedWordIsTheCommandsOnlyWord : Prop :=
  ∀ (w : Word) (i : Instr), decode w = .ok i → encode i = w

/-- 30_encoding.md section 1: the seventeen words of the opcode map. -/
def Obligations.OpcodeMapWordsDecode : Prop :=
  decode 0x00000000#32 = .ok .sysNop ∧ decode 0x00000001#32 = .ok .sysSrst ∧
  decode 0x00000002#32 = .ok .sysFlush ∧ decode 0x00000010#32 = .ok .sm3Init ∧
  decode 0x00000011#32 = .ok .sm3Write ∧ decode 0x00000012#32 = .ok .sm3Sum ∧
  decode 0x00000013#32 = .ok .sm3Hash ∧ decode 0x00000020#32 = .ok .sm4Setkey ∧
  decode 0x00000021#32 = .ok .sm4Enc ∧ decode 0x00000022#32 = .ok .sm4Dec ∧
  decode 0x00000023#32 = .ok .sm4EcbEnc ∧ decode 0x00000024#32 = .ok .sm4EcbDec ∧
  decode 0x00000025#32 = .ok .sm4CbcEnc ∧ decode 0x00000026#32 = .ok .sm4CbcDec ∧
  decode 0x00000030#32 = .ok .sm2Keygen ∧ decode 0x00000031#32 = .ok .sm2Enc ∧
  decode 0x00000032#32 = .ok .sm2Dec

/-- R73: a word is a command or illegal, it is illegal exactly when RSV is not zero or OPC is not one of the
seventeen, and writing an illegal word to CMD empties both queues, clears IOVF, gives E_ILLEGAL_CMD and changes
nothing else. -/
def Obligations.IllegalWordFailsAndChangesNothingElse : Prop :=
  ∀ w : Word,
    ((∃ e, decode w = .error e) ↔
      (w.toNat / 256 ≠ 0 ∨ w.toNat % 256 ∉ [0x00, 0x01, 0x02, 0x10, 0x11, 0x12, 0x13, 0x20, 0x21, 0x22, 0x23, 0x24,
        0x25, 0x26, 0x30, 0x31, 0x32])) ∧
    ∀ (e : IllegalWord) (s : State) (rest : List HostAction),
      decode w = .error e → s.busy = none → s.host.agenda = .write .cmd w :: rest →
      step s = .next { s with
        iq := [], oq := [], iovf := false, result := .illegalCmd, host := { s.host with agenda := rest } }

/-! ### The register port -/

/-- 20_memory.md section 1, 30_encoding.md section 1: when the word the host writes to CMD decodes to a command and no
command is in progress, the step is `exec` of that command at the state whose next host access has been taken from the
host's list. Nothing is added around it: the block has no program counter. -/
def Obligations.StepRunsTheDecodedCommand : Prop :=
  ∀ (s : State) (w : Word) (i : Instr) (rest : List HostAction),
    s.busy = none → s.host.agenda = .write .cmd w :: rest → decode w = .ok i →
    step s = exec i { s with host := { s.host with agenda := rest } }

/-- R38, R44, R51: the eight registers and their indices; a write of CMD executes its word, a write of DIN appends its
low byte if there is room and otherwise only sets IOVF, a write to a read-only register changes nothing, and a read of
a write-only register returns 0 and changes nothing. -/
def Obligations.WritesOfOtherRegistersPushOrDoNothing : Prop :=
  [HostReg.cmd, .result, .status, .ilen, .olen, .din, .dout, .rngerr].map HostReg.index = [0, 1, 2, 3, 4, 5, 6, 7] ∧
  ∀ (s : State) (r : HostReg) (v : Word) (rest : List HostAction), s.busy = none →
    (s.host.agenda = .write r v :: rest →
      (r = .din → s.iq.length < Config.iqBytes →
        step s = .next { s with iq := s.iq ++ [v.setWidth 8], host := { s.host with agenda := rest } }) ∧
      (r = .din → Config.iqBytes ≤ s.iq.length →
        step s = .next { s with iovf := true, host := { s.host with agenda := rest } }) ∧
      (r ∈ [HostReg.result, .status, .ilen, .olen, .dout, .rngerr] →
        step s = .next { s with host := { s.host with agenda := rest } }) ∧
      (r = .cmd → step s =
        match decode v with
        | .ok i => exec i { s with host := { s.host with agenda := rest } }
        | .error _ => .next { s with
            iq := [], oq := [], iovf := false, result := .illegalCmd, host := { s.host with agenda := rest } })) ∧
    (s.host.agenda = .read r :: rest → r ∈ [HostReg.cmd, .din] →
      step s = .next { s with host := { agenda := rest, rdata := 0 } })

/-- R52, R45: what a read of each register returns, and that only the read of DOUT changes the core, where it removes
the head of the output queue. -/
def Obligations.ReadReturnsTheRegister : Prop :=
  ∀ (s : State) (r : HostReg) (rest : List HostAction),
    s.busy = none → s.host.agenda = .read r :: rest →
    step s = .next { s with
      oq := if r = .dout then s.oq.drop 1 else s.oq
      host :=
        { agenda := rest
          rdata := match r with
            | .cmd => 0#32
            | .result => BitVec.ofNat 32 s.result.byte.toNat
            | .status => BitVec.ofNat 32 (s.eng.c.keyv.toNat + 2 * s.iovf.toNat)
            | .ilen => BitVec.ofNat 32 s.iq.length
            | .olen => BitVec.ofNat 32 s.oq.length
            | .din => 0#32
            | .dout => BitVec.ofNat 32 (match s.oq with | [] => 0 | b :: _ => b.toNat)
            | .rngerr => s.rngerr } }

/-- R270: the thirteen codes and their numbers, no two alike. -/
def Obligations.ResultCodesAreThirteenNumbers : Prop :=
  (∀ c : ResultCode, c.byte.toNat ≤ 0x0C) ∧ (∀ c d : ResultCode, c.byte = d.byte → c = d) ∧
  ResultCode.byte .ok = 0x00#8 ∧ ResultCode.byte .illegalCmd = 0x01#8 ∧ ResultCode.byte .keyLength = 0x02#8 ∧
  ResultCode.byte .blockLength = 0x03#8 ∧ ResultCode.byte .dataLength = 0x04#8 ∧
  ResultCode.byte .badPadding = 0x05#8 ∧ ResultCode.byte .noKey = 0x06#8 ∧ ResultCode.byte .invalidKey = 0x07#8 ∧
  ResultCode.byte .truncatedInput = 0x08#8 ∧ ResultCode.byte .invalidPoint = 0x09#8 ∧
  ResultCode.byte .authFailure = 0x0A#8 ∧ ResultCode.byte .rng = 0x0B#8 ∧ ResultCode.byte .inputOverflow = 0x0C#8

/-- 20_memory.md section 1: bytes pushed while there is room join the input queue in push order and change nothing
else. -/
def Obligations.PushedBytesJoinTheInputInOrder : Prop :=
  ∀ (bs : Bytes) (s : State) (rest : List HostAction),
    s.busy = none → s.host.agenda = pushActions bs ++ rest → s.iq.length + bs.length ≤ Config.iqBytes →
    run bs.length s = .next { s with iq := s.iq ++ bs, host := { s.host with agenda := rest } }

/-! ### Reset and the system commands -/

/-- 10_state.md section 9: the value of every element of the core after reset. -/
def Obligations.ResetValuesOfTheCore : Prop :=
  State.reset.eng.h.v.toList = [0x7380166f#32, 0x4914b2b9#32, 0x172442d7#32, 0xda8a0600#32, 0xa96f30bc#32,
    0x163138aa#32, 0xe38dee4d#32, 0xb0fb0e4e#32] ∧
  State.reset.eng.h.buf.toList = List.replicate 64 0#8 ∧ State.reset.eng.h.fill = 0 ∧ State.reset.eng.h.len = 0 ∧
  State.reset.eng.c.keyv = false ∧ State.reset.iovf = false ∧ State.reset.result.byte = 0x00#8 ∧
  State.reset.rngerr = 0 ∧ State.reset.iq = [] ∧ State.reset.oq = []

/-- 70_reset_and_hazards.md section 1: a hardware reset (one event, from assertion to release), whatever the core is
doing, a retrying command included, gives every element its reset value, and every register then reads 0. That it
leaves the random source as it is, draws consumed by an abandoned command included, is the model's choice (log 9), and
so is that the value of the latest read stays (log 2). -/
def Obligations.HardwareResetGivesTheResetValues : Prop :=
  ∀ (s : State) (rest : List HostAction), s.host.agenda = .reset :: rest → ∃ t, step s = .next t ∧
    t.eng.h.v = sm3IV ∧ t.eng.h.buf = Vector.replicate 64 0#8 ∧ t.eng.h.fill = 0 ∧ t.eng.h.len = 0 ∧
    t.eng.c.keyv = false ∧ t.iq = [] ∧ t.oq = [] ∧ t.iovf = false ∧ t.result.byte = 0x00#8 ∧ t.rngerr = 0 ∧
    t.busy = none ∧ t.rng = s.rng ∧ t.host = { s.host with agenda := rest } ∧
    ∀ (r : HostReg) (more : List HostAction),
      step (t.withProgram (.read r :: more)) = .next { t with host := { agenda := more, rdata := 0 } }

/-- R261: SYS.SRST, with IOVF set or not, gives H, KEYV, the queues, IOVF, RESULT and RNGERR their reset values, and
the state a hardware reset gives, the round keys apart, whose value is not observable. -/
def Obligations.SoftResetEqualsHardwareReset : Prop :=
  ∀ s : State, ∃ t u, exec .sysSrst s = .next t ∧
    t.eng.h.v = sm3IV ∧ t.eng.h.buf = Vector.replicate 64 0#8 ∧ t.eng.h.fill = 0 ∧ t.eng.h.len = 0 ∧
    t.eng.c.keyv = false ∧ t.iq = [] ∧ t.oq = [] ∧ t.iovf = false ∧ t.result.byte = 0x00#8 ∧ t.rngerr = 0 ∧
    step (s.withProgram (.reset :: s.host.agenda)) = .next u ∧
    { u with eng := { u.eng with c := { u.eng.c with rke := t.eng.c.rke, rkd := t.eng.c.rkd } } } = t

/-- R260: SYS.NOP changes nothing at all. -/
def Obligations.NopChangesNothing : Prop := ∀ s : State, exec .sysNop s = .next s

/-- R262: SYS.FLUSH empties both queues, clears IOVF and RESULT, and leaves H, C, RNGERR and all else. -/
def Obligations.FlushEmptiesTheQueues : Prop :=
  ∀ s : State, exec .sysFlush s = .next { s with iq := [], oq := [], iovf := false, result := .ok }

/-! ### The wrapper, errors and whole-machine rules -/

/-- 70_reset_and_hazards.md section 3: every outcome is defined, so no step stops the machine. -/
def Obligations.EveryStepHasANextState : Prop := ∀ s : State, ∃ t, step s = .next t

/-- R282: with IOVF set, every command but SYS.NOP, SYS.SRST and SYS.FLUSH fails with E_INPUT_OVERFLOW without looking
at its input. -/
def Obligations.InputOverflowFailsDataCommands : Prop :=
  ∀ (i : Instr) (s : State), i ≠ .sysNop → i ≠ .sysSrst → i ≠ .sysFlush → s.iovf = true →
    exec i s = .next { s with iq := [], oq := [], iovf := false, result := .inputOverflow }

/-- 60_exceptions.md section 4, 44_sm2_scheme.md section 2: a command that ends with an error has emptied the queues,
cleared IOVF, written RESULT, and RNGERR with the failure code of the draw for E_RNG only; H, C and all else are as
before (the draws stay consumed). The same of an SM2.ENC that ends with an error in a later pass of its loop, where
E_RNG is the only error left; that each later pass is a step of its own is the model's choice (log 6). -/
def Obligations.FailingCommandChangesNothingElse : Prop :=
  (∀ (i : Instr) (s t : State),
    exec i s = .next t → i ≠ .sysNop → s.busy = none → t.busy = none → t.result ≠ .ok →
    t = { s with
      iq := [], oq := [], iovf := false, result := t.result, rngerr := t.rngerr, rng := t.rng } ∧
    (t.result ≠ .rng → t.rngerr = s.rngerr) ∧
    (t.result = .rng → s.rng.drawIv = (.fail t.rngerr, t.rng) ∨ s.rng.drawScalar = (.fail t.rngerr, t.rng))) ∧
  ∀ (inp : Bytes) (s t : State),
    s.busy = some inp → s.BusyWf inp → (∀ rest, s.host.agenda ≠ .reset :: rest) → step s = .next t →
    t.busy = none → t.result ≠ .ok →
    t = { s with
      iq := [], oq := [], iovf := false, busy := none, result := .rng, rngerr := t.rngerr, rng := t.rng } ∧
    s.rng.drawScalar = (.fail t.rngerr, t.rng)

/-- 60_exceptions.md section 1, 44_sm2_scheme.md section 2: which codes a completed command can leave in RESULT, and
which an SM2.ENC that completes in a later pass of its loop can leave; that each later pass is a step of its own is
the model's choice (log 6). -/
def Obligations.CommandGivesOnlyItsOwnCodes : Prop :=
  (∀ (i : Instr) (s t : State),
    exec i s = .next t → s.busy = none → t.busy = none →
    (i = .sysNop ∧ t.result = s.result) ∨ (i ≠ .sysNop ∧ t.result = .ok) ∨
    (i.isData = true ∧ s.iovf = true ∧ t.result = .inputOverflow) ∨ t.result ∈ i.errorCodes) ∧
  ∀ (inp : Bytes) (s t : State),
    s.busy = some inp → s.BusyWf inp → (∀ rest, s.host.agenda ≠ .reset :: rest) → step s = .next t →
    t.busy = none → t.result = .ok ∨ t.result = .rng

/-- 60_exceptions.md section 6: only SM4.CBC.ENC, SM2.KEYGEN and SM2.ENC draw, once a pass, and only when the earlier
checks have passed; a later pass of SM2.ENC's loop draws once too, in a step of its own (log 6). -/
def Obligations.DrawsOnlyAfterTheChecksOfThreeCommands : Prop :=
  (∀ (i : Instr) (s t : State),
    exec i s = .next t → t.rng ≠ s.rng →
    t.rng.draws = s.rng.draws + 1 ∧ s.iovf = false ∧
    ((i = .sm4CbcEnc ∧ s.eng.c.keyv = true) ∨ i = .sm2Keygen ∨
      (i = .sm2Enc ∧ 64 ≤ s.iq.length ∧ onCurve (encQx s.iq) (encQy s.iq) = true))) ∧
  ∀ (inp : Bytes) (s t : State),
    s.busy = some inp → s.BusyWf inp → (∀ rest, s.host.agenda ≠ .reset :: rest) → step s = .next t →
    t.rng = s.rng.drawScalar.2 ∧ t.rng.draws = s.rng.draws + 1

/-- 60_exceptions.md section 1: a failing draw of SM4.CBC.ENC, SM2.KEYGEN or SM2.ENC, the draw of a retry too, ends
the command with E_RNG and its code goes unchanged to RNGERR; no second draw is made. That a retry is a step of its
own, from a state with the command in progress, is the model's choice (log 6). -/
def Obligations.FailedDrawIsPassedOnVerbatim : Prop :=
  ∀ (s : State) (code : Word) (r : Rng),
    (s.iovf = false → s.eng.c.keyv = true → s.rng.drawIv = (.fail code, r) →
      exec .sm4CbcEnc s = .next { s with
        iq := [], oq := [], iovf := false, result := .rng, rngerr := code, rng := r }) ∧
    (s.iovf = false → s.rng.drawScalar = (.fail code, r) →
      exec .sm2Keygen s = .next { s with
        iq := [], oq := [], iovf := false, result := .rng, rngerr := code, rng := r }) ∧
    (s.iovf = false → 64 ≤ s.iq.length → onCurve (encQx s.iq) (encQy s.iq) = true →
      s.rng.drawScalar = (.fail code, r) →
      exec .sm2Enc s = .next { s with
        iq := [], oq := [], iovf := false, result := .rng, rngerr := code, rng := r }) ∧
    (∀ inp, s.busy = some inp → s.BusyWf inp → (∀ rest, s.host.agenda ≠ .reset :: rest) →
      s.rng.drawScalar = (.fail code, r) →
      step s = .next { s with busy := none, result := .rng, rngerr := code, rng := r })

/-- 70_reset_and_hazards.md section 3: only SM3.INIT, SM3.WRITE and SYS.SRST touch the visible hash context. -/
def Obligations.OnlyThreeCommandsTouchTheHashContext : Prop :=
  ∀ (i : Instr) (s t : State), exec i s = .next t → t.eng.h ≠ s.eng.h → i ∈ [Instr.sm3Init, .sm3Write, .sysSrst]

/-- 10_state.md section 2: only SM4.SETKEY and SYS.SRST touch the cipher instance, and SM4.SETKEY only when it
succeeds. -/
def Obligations.OnlyTwoCommandsTouchTheCipherInstance : Prop :=
  ∀ (i : Instr) (s t : State), exec i s = .next t → t.eng.c ≠ s.eng.c →
    i = .sysSrst ∨ (i = .sm4Setkey ∧ t.result = .ok ∧ t.eng.c.keyv = true)

/-- 10_state.md section 2: KEYV is cleared only by hardware reset and SYS.SRST, in every state and at every step. -/
def Obligations.KeyValidFlagIsClearedOnlyByReset : Prop :=
  ∀ s t : State, step s = .next t → s.eng.c.keyv = true → t.eng.c.keyv = false →
    (∃ rest, s.host.agenda = .reset :: rest) ∨ (∃ rest, s.host.agenda = .write .cmd 0x00000001#32 :: rest)

/-- 20_memory.md section 1, 10_state.md sections 1 and 2: the invariant of the state holds after reset. Its part on a
command in progress is the model's own (log 6). -/
def Obligations.InvariantHoldsAtReset : Prop := State.reset.Inv

/-- 20_memory.md section 1, 10_state.md sections 1 and 2, 44_sm2_scheme.md section 2: every step keeps the invariant:
the queues within their capacities, FILL = LEN mod 64, RKD the reverse of RKE, and a command in progress well formed.
The last part, on an SM2.ENC in its retry loop, is the model's own (log 6). -/
def Obligations.EveryStepKeepsTheInvariant : Prop := ∀ s t : State, s.Inv → step s = .next t → t.Inv

/-- 40_sm3_hash.md section 4, 44_sm2_scheme.md section 3: what SM3.HASH and the PE commands answer does not depend on
the visible hash context or the cipher instance. -/
def Obligations.HashAndSm2ResultsIgnoreTheEngineState : Prop :=
  ∀ (i : Instr) (s : State) (eng : Engine) (t u : State),
    i ∈ [Instr.sm3Hash, .sm2Keygen, .sm2Enc, .sm2Dec] →
    exec i s = .next t → exec i { s with eng := eng } = .next u → u = { t with eng := eng }

/-! ### HE -/

/-- R111: SM3.INIT makes H a fresh context and gives no output. -/
def Obligations.Sm3InitMakesAFreshContext : Prop :=
  ∀ s : State, s.iovf = false → exec .sm3Init s = .next { s with
    eng := { s.eng with h := { v := sm3IV, buf := Vector.replicate 64 0#8, fill := 0, len := 0 } }
    iq := [], oq := [], iovf := false, result := .ok }

/-- R112: SM3.WRITE updates H with the input and gives no output. -/
def Obligations.Sm3WriteUpdatesTheContext : Prop :=
  ∀ s : State, s.iovf = false → exec .sm3Write s = .next { s with
    eng := { s.eng with h := s.eng.h.update s.iq }, iq := [], oq := [], iovf := false, result := .ok }

/-- R113: SM3.SUM gives the digest of H and leaves H as it is. -/
def Obligations.Sm3SumGivesTheDigestOfTheContext : Prop :=
  ∀ s : State, s.iovf = false → exec .sm3Sum s = .next { s with
    iq := [], oq := s.eng.h.finalize, iovf := false, result := .ok }

/-- R114: SM3.HASH gives the digest of the input and leaves H as it is. -/
def Obligations.Sm3HashGivesTheDigestOfTheInput : Prop :=
  ∀ s : State, s.iovf = false → exec .sm3Hash s = .next { s with
    iq := [], oq := sm3 s.iq, iovf := false, result := .ok }

/-- R106: the message expansion, word by word, with the big-endian words of the block and P1 written out. -/
def Obligations.MessageExpansionFollowsItsRecurrence : Prop :=
  ∀ b : Bytes, b.length = 64 →
    (expansion b).length = 68 ∧ (expansion1 (expansion b)).length = 64 ∧
    (∀ i < 16, (expansion b).getD i 0 =
      b.getD (4 * i) 0 ++ b.getD (4 * i + 1) 0 ++ b.getD (4 * i + 2) 0 ++ b.getD (4 * i + 3) 0) ∧
    (∀ j, 16 ≤ j → j < 68 → ∃ u : Word,
      u = (expansion b).getD (j - 16) 0 ^^^ (expansion b).getD (j - 9) 0 ^^^
        ((expansion b).getD (j - 3) 0).rotateLeft 15 ∧
      (expansion b).getD j 0 = (u ^^^ u.rotateLeft 15 ^^^ u.rotateLeft 23) ^^^
        ((expansion b).getD (j - 13) 0).rotateLeft 7 ^^^ (expansion b).getD (j - 6) 0) ∧
    (∀ j < 64, (expansion1 (expansion b)).getD j 0 = (expansion b).getD j 0 ^^^ (expansion b).getD (j + 4) 0)

/-- R107, R108: the compression function: 64 rounds from the chaining value over the expanded words, each written out,
then the feed-forward. -/
def Obligations.CompressionFollowsItsRounds : Prop :=
  ∀ (v : Vector Word 8) (blk : Bytes), blk.length = 64 → ∃ r : Nat → HashRegs,
    r 0 = { a := v[0], b := v[1], c := v[2], d := v[3], e := v[4], f := v[5], g := v[6], h := v[7] } ∧
    (∀ j < 64, ∃ ss1 ss2 tt1 tt2 : Word,
      ss1 = ((r j).a.rotateLeft 12 + (r j).e +
        (if j ≤ 15 then 0x79cc4519#32 else 0x7a879d8a#32).rotateLeft (j % 32)).rotateLeft 7 ∧
      ss2 = ss1 ^^^ (r j).a.rotateLeft 12 ∧
      tt1 = (if j ≤ 15 then (r j).a ^^^ (r j).b ^^^ (r j).c
        else ((r j).a &&& (r j).b) ||| ((r j).a &&& (r j).c) ||| ((r j).b &&& (r j).c)) +
        (r j).d + ss2 + (expansion1 (expansion blk)).getD j 0 ∧
      tt2 = (if j ≤ 15 then (r j).e ^^^ (r j).f ^^^ (r j).g
        else ((r j).e &&& (r j).f) ||| (~~~(r j).e &&& (r j).g)) +
        (r j).h + ss1 + (expansion blk).getD j 0 ∧
      r (j + 1) = HashRegs.mk tt1 (r j).a ((r j).b.rotateLeft 9) (r j).c
        (tt2 ^^^ tt2.rotateLeft 9 ^^^ tt2.rotateLeft 17) (r j).e ((r j).f.rotateLeft 19) (r j).g) ∧
    cf v blk = #v[(r 64).a ^^^ v[0], (r 64).b ^^^ v[1], (r 64).c ^^^ v[2], (r 64).d ^^^ v[3],
      (r 64).e ^^^ v[4], (r 64).f ^^^ v[5], (r 64).g ^^^ v[6], (r 64).h ^^^ v[7]]

/-- R109: the padding is 0x80, k zero bytes with k the least number that fits, and the bit length; message and padding
together fill whole blocks. -/
def Obligations.PaddingFillsWholeBlocks : Prop :=
  ∀ len : BitVec 64, ∃ k : Nat,
    hashPad len = [0x80#8] ++ List.replicate k 0x00#8 ++ be64 (BitVec.ofNat 64 (8 * len.toNat)) ∧
    (len.toNat + 1 + k) % 64 = 56 ∧ k ≤ 63 ∧ (∀ k' : Nat, (len.toNat + 1 + k') % 64 = 56 → k ≤ k') ∧
    (len.toNat + (hashPad len).length) % 64 = 0

/-- 40_sm3_hash.md section 3: updating a fresh context chunk by chunk is updating it with the concatenation, and after
SM3.WRITE commands on the chunks from a fresh context SM3.SUM gives the hash of the concatenation. The contexts agree
in every part; that they do so in the bytes of BUF at and above FILL, which are not observable, is the model's (log
14). -/
def Obligations.ChunkingDoesNotMatter : Prop :=
  ∀ chunks : List Bytes,
    chunks.foldl HashCtx.update HashCtx.new = HashCtx.new.update chunks.flatten ∧
    ∀ f : Nat → State, (f 0).eng.h = HashCtx.new → (f 0).iovf = false →
      (∀ (i : Nat) (hi : i < chunks.length), exec .sm3Write { f i with iq := chunks[i] } = .next (f (i + 1))) →
      ∃ t, exec .sm3Sum (f chunks.length) = .next t ∧ t.oq = sm3 chunks.flatten

/-- R118: a digest has 32 bytes and depends on the message alone; and the commands of HE draw nothing and use no state
but their context: two states alike in input and hash context give alike outputs and contexts. -/
def Obligations.DigestIsDeterministicAnd32Bytes : Prop :=
  ∀ s s' : State, s.iovf = false → s'.iovf = false → s.iq = s'.iq →
    (∃ t t', exec .sm3Hash s = .next t ∧ exec .sm3Hash s' = .next t' ∧ t.oq = t'.oq ∧ t.oq.length = 32) ∧
    (s.eng.h = s'.eng.h → ∀ i ∈ [Instr.sm3Init, .sm3Write, .sm3Sum, .sm3Hash], ∃ t t',
      exec i s = .next t ∧ exec i s' = .next t' ∧ t.oq = t'.oq ∧ t.eng.h = t'.eng.h ∧ t.rng = s.rng)

/-! ### CE -/

/-- R150: SM4.SETKEY checks the length first; on 16 bytes it loads the round keys in both orders and sets KEYV. -/
def Obligations.SetkeyLoadsBothSchedules : Prop :=
  ∀ s : State, s.iovf = false →
    (s.iq.length ≠ 16 → exec .sm4Setkey s = .next { s with
      iq := [], oq := [], iovf := false, result := .keyLength }) ∧
    (s.iq.length = 16 → ∃ c : Cipher,
      exec .sm4Setkey s = .next { s with
        eng := { s.eng with c := c }, iq := [], oq := [], iovf := false, result := .ok } ∧
      c.keyv = true ∧ ∀ i : Fin 32, c.rke[i] = (keyExpand s.iq).getD i 0 ∧ c.rkd[i] = (keyExpand s.iq).getD (31 - i) 0)

/-- R149: the key schedule, word by word, with the system constants FK and CK written out. -/
def Obligations.KeyScheduleFollowsItsRecurrence : Prop :=
  ∀ key : Bytes, key.length = 16 → ∃ k : Nat → Word,
    (∀ i < 4, k i = bytesWord (slice key (4 * i) 4) ^^^
      ([0xa3b1bac6#32, 0x56aa3350#32, 0x677d9197#32, 0xb27022dc#32] : List Word).getD i 0) ∧
    (∀ i < 32, k (i + 4) = k i ^^^ sm4TKS (k (i + 1) ^^^ k (i + 2) ^^^ k (i + 3) ^^^
      (BitVec.ofNat 8 (7 * (4 * i)) ++ BitVec.ofNat 8 (7 * (4 * i + 1)) ++ BitVec.ofNat 8 (7 * (4 * i + 2)) ++
        BitVec.ofNat 8 (7 * (4 * i + 3))))) ∧
    keyExpand key = (List.range 32).map fun i => k (i + 4)

/-- R151: the block transform, word by word. -/
def Obligations.BlockTransformFollowsItsRecurrence : Prop :=
  ∀ (rk : List Word) (blk : Bytes), rk.length = 32 → blk.length = 16 → ∃ x : Nat → Word,
    (∀ i < 4, x i = bytesWord (slice blk (4 * i) 4)) ∧
    (∀ i < 32, x (i + 4) = x i ^^^ sm4T (x (i + 1) ^^^ x (i + 2) ^^^ x (i + 3) ^^^ rk.getD i 0)) ∧
    crypt rk blk = wordBytes (x 35) ++ wordBytes (x 34) ++ wordBytes (x 33) ++ wordBytes (x 32)

/-- R154: with the round keys reversed the block transform inverts itself. -/
def Obligations.ReversedRoundKeysInvertTheBlockTransform : Prop :=
  ∀ (rk : List Word) (b : Bytes), rk.length = 32 → b.length = 16 → crypt rk.reverse (crypt rk b) = b

/-- R145, R146: the entries of the two lookup tables, with the rotations of the two diffusions written out, and that
four lookups, one per byte position, give the two transforms. -/
def Obligations.LookupTablesComputeTheTransforms : Prop :=
  (∀ (a : Byte) (p : Nat), p < 4 →
    ∃ u : Word, u = BitVec.ofNat 32 ((sbox a).toNat * 2 ^ (24 - 8 * p)) ∧
      tableTE a p = u ^^^ u.rotateLeft 2 ^^^ u.rotateLeft 10 ^^^ u.rotateLeft 18 ^^^ u.rotateLeft 24 ∧
      tableTK a p = u ^^^ u.rotateLeft 13 ^^^ u.rotateLeft 23) ∧
  ∀ a0 a1 a2 a3 : Byte,
    sm4T (a0 ++ a1 ++ a2 ++ a3) = tableTE a0 0 ^^^ tableTE a1 1 ^^^ tableTE a2 2 ^^^ tableTE a3 3 ∧
    sm4TKS (a0 ++ a1 ++ a2 ++ a3) = tableTK a0 0 ^^^ tableTK a1 1 ^^^ tableTK a2 2 ^^^ tableTK a3 3

/-- R276: the six data commands of CE check for a key first and fail with E_NO_KEY without one. -/
def Obligations.CipherCommandsNeedAKey : Prop :=
  ∀ (i : Instr) (s : State),
    i ∈ [Instr.sm4Enc, .sm4Dec, .sm4EcbEnc, .sm4EcbDec, .sm4CbcEnc, .sm4CbcDec] →
    s.iovf = false → s.eng.c.keyv = false →
    exec i s = .next { s with iq := [], oq := [], iovf := false, result := .noKey }

/-- R152, R153: SM4.ENC and SM4.DEC fail without a key, then on a length that is not 16, and else transform the block.
-/
def Obligations.BlockCommandsTransformOneBlock : Prop :=
  ∀ s : State, s.iovf = false →
    (s.eng.c.keyv = false →
      exec .sm4Enc s = .next { s with iq := [], oq := [], iovf := false, result := .noKey } ∧
      exec .sm4Dec s = .next { s with iq := [], oq := [], iovf := false, result := .noKey }) ∧
    (s.eng.c.keyv = true → s.iq.length ≠ 16 →
      exec .sm4Enc s = .next { s with iq := [], oq := [], iovf := false, result := .blockLength } ∧
      exec .sm4Dec s = .next { s with iq := [], oq := [], iovf := false, result := .blockLength }) ∧
    (s.eng.c.keyv = true → s.iq.length = 16 →
      exec .sm4Enc s = .next { s with
        iq := [], oq := crypt s.eng.c.rke.toList s.iq, iovf := false, result := .ok } ∧
      exec .sm4Dec s = .next { s with
        iq := [], oq := crypt s.eng.c.rkd.toList s.iq, iovf := false, result := .ok })

/-- R170, R171: the pad is N bytes of value N up to a multiple of 16, N in 1..16; un-padding removes as many bytes as
the last byte says and fails only on no data or too large a number; and it undoes the pad. -/
def Obligations.UnpadUndoesThePad : Prop :=
  (∀ p : Bytes, ∃ n : Nat, n = 16 - p.length % 16 ∧ 1 ≤ n ∧ n ≤ 16 ∧
    pad16 p = p ++ List.replicate n (BitVec.ofNat 8 n) ∧ (pad16 p).length = 16 * (p.length / 16 + 1)) ∧
  unpad [] = none ∧
  (∀ (q : Bytes) (n : Byte), unpad (q ++ [n]) =
    if n.toNat > q.length + 1 then none else some ((q ++ [n]).take (q.length + 1 - n.toNat))) ∧
  (∀ p : Bytes, unpad (pad16 p) = some p)

/-- R172: without a key SM4.ECB.ENC fails; with one it encrypts the padded input block by block. -/
def Obligations.EcbEncryptCompletes : Prop :=
  ∀ s : State, s.iovf = false →
    (s.eng.c.keyv = false →
      exec .sm4EcbEnc s = .next { s with iq := [], oq := [], iovf := false, result := .noKey }) ∧
    (s.eng.c.keyv = true → exec .sm4EcbEnc s = .next { s with
      iq := []
      oq := (List.range (s.iq.length / 16 + 1)).flatMap fun i =>
        crypt s.eng.c.rke.toList (slice (pad16 s.iq) (16 * i) 16)
      iovf := false, result := .ok })

/-- R173: SM4.ECB.DEC fails without a key, then on a length that is no multiple of 16; else it decrypts block by block
and removes the pad, or fails with E_BAD_PADDING when it cannot. -/
def Obligations.EcbDecryptCompletes : Prop :=
  ∀ (s : State) (q : Bytes), s.iovf = false →
    q = (List.range (s.iq.length / 16)).flatMap (fun i => crypt s.eng.c.rkd.toList (slice s.iq (16 * i) 16)) →
    (s.eng.c.keyv = false →
      exec .sm4EcbDec s = .next { s with iq := [], oq := [], iovf := false, result := .noKey }) ∧
    (s.eng.c.keyv = true → s.iq.length % 16 ≠ 0 →
      exec .sm4EcbDec s = .next { s with iq := [], oq := [], iovf := false, result := .dataLength }) ∧
    (s.eng.c.keyv = true → s.iq.length % 16 = 0 → unpad q = none →
      exec .sm4EcbDec s = .next { s with iq := [], oq := [], iovf := false, result := .badPadding }) ∧
    (s.eng.c.keyv = true → s.iq.length % 16 = 0 → ∀ p, unpad q = some p →
      exec .sm4EcbDec s = .next { s with iq := [], oq := p, iovf := false, result := .ok })

/-- R174: SM4.CBC.ENC fails without a key, then on a failed draw; else it gives the IV and the chained blocks `c 0, c
1, …`, each the transform of a padded block XOR the one before it, the IV before the first. -/
def Obligations.CbcEncryptCompletes : Prop :=
  ∀ s : State, s.iovf = false →
    (s.eng.c.keyv = false →
      exec .sm4CbcEnc s = .next { s with iq := [], oq := [], iovf := false, result := .noKey }) ∧
    (s.eng.c.keyv = true → ∀ (code : Word) (r : Rng), s.rng.drawIv = (.fail code, r) →
      exec .sm4CbcEnc s = .next { s with
        iq := [], oq := [], iovf := false, result := .rng, rngerr := code, rng := r }) ∧
    (s.eng.c.keyv = true → ∀ (iv : Vector Byte 16) (r : Rng), s.rng.drawIv = (.ok iv, r) →
      ∃ c : Nat → Bytes, c 0 = iv.toList ∧
        (∀ i ≤ s.iq.length / 16,
          c (i + 1) = crypt s.eng.c.rke.toList (xorBytes (slice (pad16 s.iq) (16 * i) 16) (c i))) ∧
        exec .sm4CbcEnc s = .next { s with
          iq := [], oq := (List.range (s.iq.length / 16 + 2)).flatMap c, iovf := false, result := .ok, rng := r })

/-- R175: SM4.CBC.DEC fails without a key, then on a length below 16 or no multiple of 16; else it decrypts each
block, XORs the block before it, and removes the pad, or fails with E_BAD_PADDING when it cannot. -/
def Obligations.CbcDecryptCompletes : Prop :=
  ∀ (s : State) (q : Bytes), s.iovf = false →
    q = (List.range (s.iq.length / 16 - 1)).flatMap (fun i =>
      xorBytes (crypt s.eng.c.rkd.toList (slice s.iq (16 * (i + 1)) 16)) (slice s.iq (16 * i) 16)) →
    (s.eng.c.keyv = false →
      exec .sm4CbcDec s = .next { s with iq := [], oq := [], iovf := false, result := .noKey }) ∧
    (s.eng.c.keyv = true → s.iq.length < 16 ∨ s.iq.length % 16 ≠ 0 →
      exec .sm4CbcDec s = .next { s with iq := [], oq := [], iovf := false, result := .dataLength }) ∧
    (s.eng.c.keyv = true → 16 ≤ s.iq.length → s.iq.length % 16 = 0 → unpad q = none →
      exec .sm4CbcDec s = .next { s with iq := [], oq := [], iovf := false, result := .badPadding }) ∧
    (s.eng.c.keyv = true → 16 ≤ s.iq.length → s.iq.length % 16 = 0 → ∀ p, unpad q = some p →
      exec .sm4CbcDec s = .next { s with iq := [], oq := p, iovf := false, result := .ok })

/-- R176: for every 16-byte key loaded by SM4.SETKEY and every p of any length, SM4.ECB.DEC of what SM4.ECB.ENC gave
for p gives p, and SM4.CBC.DEC of what SM4.CBC.ENC gave for p gives p for every IV drawn. The rule bounds |p| only so
that the ciphertext fits the input queue. -/
def Obligations.ModesRoundTrip : Prop :=
  ∀ (s : State) (key p : Bytes), s.iovf = false → key.length = 16 →
    ∃ l, exec .sm4Setkey { s with iq := key } = .next l ∧ l.result = .ok ∧
      (∃ t u, exec .sm4EcbEnc { l with iq := p } = .next t ∧ t.result = .ok ∧
        exec .sm4EcbDec { t with iq := t.oq } = .next u ∧ u.result = .ok ∧ u.oq = p) ∧
      ∀ (iv : Vector Byte 16) (r : Rng), l.rng.drawIv = (.ok iv, r) →
        ∃ t u, exec .sm4CbcEnc { l with iq := p } = .next t ∧ t.result = .ok ∧
          exec .sm4CbcDec { t with iq := t.oq } = .next u ∧ u.result = .ok ∧ u.oq = p

/-! ### PE -/

/-- R210: the test for a pair of coordinates: both below P and on the curve, taken over the integers modulo P. -/
def Obligations.OnCurveTestsTheCurveEquation : Prop :=
  ∀ x y : Nat, onCurve x y = true ↔
    x < curveP ∧ y < curveP ∧ (y * y) % curveP = (x * x * x + (curveP - 3) * x + curveB) % curveP

/-- 43_sm2_field_curve.md section 1: what the field functions compute over the integers, inversion of a number that is
not 0 included; every one answers a number below P; and on numbers below P subtraction undoes addition and a number
plus its negative is zero. That inversion answers a number below P at 0 too is the model's choice (log 8). -/
def Obligations.FieldFunctionsAreReduced : Prop :=
  ∀ x y : Nat, x < curveP → y < curveP →
    fadd x y = (x + y) % curveP ∧ fmul x y = (x * y) % curveP ∧
    fsub x y = (if y ≤ x then x - y else x + curveP - y) ∧ fneg x = (curveP - x) % curveP ∧ fneg 0 = 0 ∧
    (x ≠ 0 → finv x = x ^ (curveP - 2) % curveP) ∧
    fadd x y < curveP ∧ fsub x y < curveP ∧ fneg x < curveP ∧ fmul x y < curveP ∧ finv x < curveP ∧
    fsub (fadd x y) y = x ∧ fadd (fsub x y) y = x ∧ fadd x (fneg x) = 0 ∧ fsub x y = fadd x (fneg y)

/-- 43_sm2_field_curve.md section 2: INF is neutral for point addition; a point plus its negative is INF; two points
of one x coordinate that are not negatives of each other add along the tangent, two of different x coordinates along
the chord; and doubling is addition to itself, INF for INF and for y = 0. On pairs that are not on the curve the rules
specify nothing, and that the same formulas hold there is the model's choice (log 15). -/
def Obligations.InfinityIsNeutralAndNegativesCancel : Prop :=
  (∀ q : Point, pointAdd .inf q = q ∧ pointAdd q .inf = q) ∧
  (∀ x y : Nat, y < curveP → pointAdd (.affine x y) (.affine x (fneg y)) = .inf) ∧
  (∀ x y1 y2 : Nat, fadd y1 y2 = 0 → pointAdd (.affine x y1) (.affine x y2) = .inf) ∧
  (∀ x y1 y2 : Nat, fadd y1 y2 ≠ 0 → ∃ lam x3 y3 : Nat,
    lam = fmul (fadd (fmul 3 (fmul x x)) (curveP - 3)) (finv (fmul 2 y1)) ∧
    x3 = fsub (fsub (fmul lam lam) x) x ∧ y3 = fsub (fmul lam (fsub x x3)) y1 ∧
    pointAdd (.affine x y1) (.affine x y2) = .affine x3 y3) ∧
  (∀ x1 y1 x2 y2 : Nat, x1 ≠ x2 → ∃ lam x3 y3 : Nat,
    lam = fmul (fsub y2 y1) (finv (fsub x2 x1)) ∧
    x3 = fsub (fsub (fmul lam lam) x1) x2 ∧ y3 = fsub (fmul lam (fsub x1 x3)) y1 ∧
    pointAdd (.affine x1 y1) (.affine x2 y2) = .affine x3 y3) ∧
  (∀ q : Point, pointDouble q = pointAdd q q) ∧
  pointDouble .inf = .inf ∧ (∀ x : Nat, pointDouble (.affine x 0) = .inf)

/-- 43_sm2_field_curve.md section 2: scalar multiplication by double and add: 0 gives INF, 1 the point, and the scalar
with one more low bit the double of the product, plus the point if the bit is 1. On pairs that are not on the curve,
where the rules specify nothing, this is the model's choice (log 15). -/
def Obligations.ScalarMulDoublesAndAdds : Prop :=
  ∀ q : Point, scalarMul 0 q = .inf ∧ scalarMul 1 q = q ∧
    ∀ k : Nat, k < 2 ^ 255 →
      scalarMul (2 * k) q = pointDouble (scalarMul k q) ∧
      scalarMul (2 * k + 1) q = pointAdd (pointDouble (scalarMul k q)) q

/-- R230: the KDF gives L bytes, none for L = 0, and byte 32·i + j of them is byte j of the hash of the seed and the
counter i + 1. -/
def Obligations.KdfConcatenatesCounterHashes : Prop :=
  ∀ (seed : Bytes) (len : Nat), (kdf seed len).length = len ∧
    ∀ n < len, (kdf seed len)[n]? = (sm3 (seed ++ wordBytes (BitVec.ofNat 32 (n / 32 + 1))))[n % 32]?

/-- R236: the all-zero test is false for the empty sequence and else says that every byte is zero. -/
def Obligations.AllZeroNeedsAByte : Prop :=
  ∀ t : Bytes, allZero t = true ↔ 1 ≤ t.length ∧ ∀ b ∈ t, b = 0x00#8

/-- R232: on a failed draw SM2.KEYGEN ends with E_RNG; with an answered draw d it gives d and the coordinates of d·G,
each as 32 bytes, most significant first, for any input. -/
def Obligations.KeygenGivesTheScalarAndItsPoint : Prop :=
  ∀ (s : State) (r : Rng), s.iovf = false →
    (∀ code : Word, s.rng.drawScalar = (.fail code, r) →
      exec .sm2Keygen s = .next { s with
        iq := [], oq := [], iovf := false, result := .rng, rngerr := code, rng := r }) ∧
    (∀ d : Scalar, s.rng.drawScalar = (.ok d, r) →
      exec .sm2Keygen s = .next { s with
        iq := []
        oq := [d.val, (scalarMul d.val baseG).x, (scalarMul d.val baseG).y].flatMap fun x =>
          (List.range 32).map fun i => BitVec.ofNat 8 (x / 256 ^ (31 - i))
        iovf := false, result := .ok, rng := r })

/-- 44_sm2_scheme.md section 2: SM2.ENC fails on a short input and on a pair off the curve, without a draw; else, with
an answered draw k whose keystream is not all zero, it gives the marker, C1, C3 and C2. -/
def Obligations.Sm2EncryptCompletes : Prop :=
  ∀ s : State, s.iovf = false →
    (s.iq.length < 64 → exec .sm2Enc s = .next { s with iq := [], oq := [], iovf := false, result := .invalidKey }) ∧
    (64 ≤ s.iq.length → onCurve (b2i (s.iq.take 32)) (b2i ((s.iq.drop 32).take 32)) = false →
      exec .sm2Enc s = .next { s with iq := [], oq := [], iovf := false, result := .invalidKey }) ∧
    (64 ≤ s.iq.length → onCurve (b2i (s.iq.take 32)) (b2i ((s.iq.drop 32).take 32)) = true →
      ∀ (k : Scalar) (r : Rng) (m t : Bytes) (sh : Point), s.rng.drawScalar = (.ok k, r) →
      m = s.iq.drop 64 →
      sh = scalarMul k.val (.affine (b2i (s.iq.take 32)) (b2i ((s.iq.drop 32).take 32))) →
      t = kdf (i2b32 sh.x ++ i2b32 sh.y) m.length → allZero t = false →
      exec .sm2Enc s = .next { s with
        iq := []
        oq := [0x04#8] ++ i2b32 (scalarMul k.val baseG).x ++ i2b32 (scalarMul k.val baseG).y ++
          sm3 (i2b32 sh.x ++ m ++ i2b32 sh.y) ++ xorBytes m t
        iovf := false, result := .ok, rng := r })

/-- 44_sm2_scheme.md section 2, 70_reset_and_hazards.md section 3: an SM2.ENC whose first draws all give an all-zero
keystream completes with the first draw that does not, after one step for every draw, and the host waits meanwhile.
How many steps the retries take is the model's choice (log 6). -/
def Obligations.Sm2EncryptRetriesUntilANonzeroKeystream : Prop :=
  ∀ (s : State) (zeros : List Scalar) (k : Scalar) (more : List (RngAnswer Scalar)) (rest : List HostAction)
    (q : Point) (m : Bytes),
    s.busy = none → s.iovf = false → s.host.agenda = .write .cmd 0x00000031#32 :: rest →
    (∀ r, rest ≠ .reset :: r) → 64 ≤ s.iq.length → onCurve (encQx s.iq) (encQy s.iq) = true →
    q = .affine (encQx s.iq) (encQy s.iq) → m = encPlain s.iq →
    s.rng.scalars = zeros.map .ok ++ .ok k :: more →
    (∀ z ∈ zeros, allZero (keystream (scalarMul z.val q) m.length) = true) →
    allZero (keystream (scalarMul k.val q) m.length) = false →
    run (zeros.length + 1) s = .next { s with
      iq := []
      oq := ciphertext (scalarMul k.val baseG).x (scalarMul k.val baseG).y (tag (scalarMul k.val q) m)
        (xorBytes m (keystream (scalarMul k.val q) m.length))
      iovf := false, result := .ok
      rng := { s.rng with scalars := more, draws := s.rng.draws + zeros.length + 1 }
      host := { s.host with agenda := rest } }

/-- R234: SM2.DEC's checks in their order, each with its error, and its output when all pass. -/
def Obligations.Sm2DecryptChecksInOrder : Prop :=
  ∀ (s : State) (c m : Bytes) (sh : Point), s.iovf = false →
    c = s.iq.drop 32 →
    sh = scalarMul (b2i (s.iq.take 32)) (.affine (b2i ((c.drop 1).take 32)) (b2i ((c.drop 33).take 32))) →
    m = xorBytes (c.drop 97) (kdf (i2b32 sh.x ++ i2b32 sh.y) (c.length - 97)) →
    exec .sm2Dec s = .next (
      if s.iq.length < 129 then { s with iq := [], oq := [], iovf := false, result := .truncatedInput }
      else if c.headD 0x00#8 ≠ 0x04#8 then { s with iq := [], oq := [], iovf := false, result := .invalidPoint }
      else if onCurve (b2i ((c.drop 1).take 32)) (b2i ((c.drop 33).take 32)) = false then
        { s with iq := [], oq := [], iovf := false, result := .invalidPoint }
      else if sh = .inf then { s with iq := [], oq := [], iovf := false, result := .invalidKey }
      else if sm3 (i2b32 sh.x ++ m ++ i2b32 sh.y) ≠ (c.drop 65).take 32 then
        { s with iq := [], oq := [], iovf := false, result := .authFailure }
      else { s with iq := [], oq := m, iovf := false, result := .ok })

/-- 44_sm2_scheme.md sections 2 and 3: SM2.DEC of what SM2.ENC gave returns the plaintext, whenever C1 is a point of
the curve, the shared point is not INF, and the two ways to the shared point agree, `d·(k·G) = k·Q`, which the spec
derives from the group law. The same when SM2.ENC completes in a later pass of its loop, which in the model is a step
from a state with the command in progress (log 6). -/
def Obligations.Sm2DecryptUndoesEncrypt : Prop :=
  ∀ (inp : Bytes) (k : Scalar) (r : Rng) (d x1 y1 : Nat) (q : Point) (m : Bytes),
    64 ≤ inp.length → onCurve (encQx inp) (encQy inp) = true →
    q = .affine (encQx inp) (encQy inp) → m = encPlain inp →
    allZero (keystream (scalarMul k.val q) m.length) = false →
    d < 2 ^ 256 → scalarMul k.val baseG = .affine x1 y1 → onCurve x1 y1 = true →
    scalarMul d (.affine x1 y1) = scalarMul k.val q → scalarMul k.val q ≠ .inf →
    (∀ s : State, s.iovf = false → s.iq = inp → s.rng.drawScalar = (.ok k, r) →
      ∃ t u, exec .sm2Enc s = .next t ∧ t.result = .ok ∧ t.oq.length = 97 + m.length ∧
        exec .sm2Dec { t with iq := i2b32 d ++ t.oq } = .next u ∧ u.result = .ok ∧ u.oq = m) ∧
    (∀ s : State, s.busy = some inp → s.BusyWf inp → (∀ rest, s.host.agenda ≠ .reset :: rest) →
      s.rng.drawScalar = (.ok k, r) →
      ∃ t u, step s = .next t ∧ t.busy = none ∧ t.result = .ok ∧ t.oq.length = 97 + m.length ∧
        exec .sm2Dec { t with iq := i2b32 d ++ t.oq } = .next u ∧ u.result = .ok ∧ u.oq = m)

/-! ### Hash contexts -/

/-- R110, R115: a fresh context; absorbing one byte puts it into BUF at FILL and adds 1 to FILL, and when FILL reaches
64 compresses BUF into V and returns FILL to 0, LEN untouched; a sequence is absorbed byte by byte in order; updating
absorbs and adds the length to LEN modulo 2^64; and finalizing absorbs Pad(LEN), which ends with FILL = 0, and gives
the words of V, each big-endian. The bytes of BUF at and above FILL, which are not observable, are left out. -/
def Obligations.ContextsAbsorbUpdateAndFinalize : Prop :=
  HashCtx.new = { v := sm3IV, buf := Vector.replicate 64 0#8, fill := 0, len := 0 } ∧
  (∀ m : Bytes, sm3 m = (HashCtx.new.update m).finalize) ∧
  ∀ ctx : HashCtx,
    ctx.absorb [] = ctx ∧ (∀ (b : Byte) (s : Bytes), ctx.absorb (b :: s) = (ctx.absorb [b]).absorb s) ∧
    (∀ b : Byte, (ctx.absorb [b]).len = ctx.len ∧
      (ctx.fill.val < 63 →
        (ctx.absorb [b]).v = ctx.v ∧ (ctx.absorb [b]).fill.val = ctx.fill.val + 1 ∧
        (ctx.absorb [b]).buf[ctx.fill] = b ∧
        ∀ i : Fin 64, i < ctx.fill → (ctx.absorb [b]).buf[i] = ctx.buf[i]) ∧
      (ctx.fill.val = 63 →
        (ctx.absorb [b]).v = cf ctx.v (ctx.buf.toList.take 63 ++ [b]) ∧ (ctx.absorb [b]).fill.val = 0)) ∧
    (∀ s : Bytes, ctx.update s = { ctx.absorb s with len := BitVec.ofNat 64 (ctx.len.toNat + s.length) }) ∧
    (ctx.wf → (ctx.absorb (hashPad ctx.len)).fill.val = 0) ∧
    ctx.finalize = (ctx.absorb (hashPad ctx.len)).v.toList.flatMap fun w =>
      [w.extractLsb' 24 8, w.extractLsb' 16 8, w.extractLsb' 8 8, w.extractLsb' 0 8]
end

