-- ==== Sys2Proof/Laws/Bytes.lean ====
section
/-!
SUPPORT. Laws of the byte sequences and the big-endian conversions (Machine/Bytes.lean, Machine/Operands.lean).
-/

namespace Sys2Proof.Machine

@[simp] theorem i2b_length (n x : Nat) : (i2b n x).length = n := by
  induction n with
  | zero => rfl
  | succ n ih => simp [i2b, ih]

@[simp] theorem i2b32_length (x : Nat) : (i2b32 x).length = 32 := i2b_length 32 x

@[simp] theorem wordBytes_length (w : Word) : (wordBytes w).length = 4 := i2b_length 4 w.toNat

@[simp] theorem be64_length (v : BitVec 64) : (be64 v).length = 8 := i2b_length 8 v.toNat

/-- Folding from an accumulator shifts it past the sequence. -/
theorem foldl_bytes_acc (s : Bytes) (a : Nat) :
    s.foldl (fun n b => n * 256 + b.toNat) a = a * 256 ^ s.length + b2i s := by
  induction s generalizing a with
  | nil => simp [b2i]
  | cons b s ih =>
    simp only [List.foldl_cons, List.length_cons, b2i]
    rw [ih, ih (0 * 256 + b.toNat)]
    ring

theorem b2i_nil : b2i [] = 0 := rfl

theorem b2i_cons (b : Byte) (s : Bytes) : b2i (b :: s) = b.toNat * 256 ^ s.length + b2i s := by
  simpa [b2i] using foldl_bytes_acc s b.toNat

theorem b2i_lt (s : Bytes) : b2i s < 256 ^ s.length := by
  induction s with
  | nil => simp [b2i]
  | cons b s ih =>
    rw [b2i_cons, List.length_cons, Nat.pow_succ]
    have hb := b.isLt
    nlinarith [Nat.pos_of_ne_zero (show (256 : Nat) ^ s.length ≠ 0 by positivity)]

/-- `B2I` of the n-byte encoding of x is x modulo 256^n (R13). -/
theorem b2i_i2b (n x : Nat) : b2i (i2b n x) = x % 256 ^ n := by
  induction n with
  | zero => simp [i2b, b2i, Nat.mod_one]
  | succ n ih =>
    rw [i2b, b2i_cons, ih, i2b_length]
    have h : (BitVec.ofNat 8 (x / 256 ^ n)).toNat = x / 256 ^ n % 256 := by simp
    rw [h, Nat.pow_succ, Nat.mod_mul, Nat.mul_comm, Nat.add_comm]

theorem b2i_i2b32 (x : Nat) (h : x < 2 ^ 256) : b2i (i2b32 x) = x := by
  rw [i2b32, b2i_i2b]
  exact Nat.mod_eq_of_lt (by simpa using h)

/-- Encoding the number of a sequence in as many bytes gives the sequence back (R13). -/
theorem i2b_b2i (s : Bytes) : i2b s.length (b2i s) = s := by
  suffices h : ∀ (s : Bytes) (m : Nat), i2b s.length (m * 256 ^ s.length + b2i s) = s by
    simpa using h s 0
  intro s
  induction s with
  | nil => intro m; rfl
  | cons b s ih =>
    intro m
    rw [List.length_cons, i2b, b2i_cons]
    have hpos : 0 < 256 ^ s.length := by positivity
    have hdiv : (m * 256 ^ (s.length + 1) + (b.toNat * 256 ^ s.length + b2i s)) / 256 ^ s.length
        = m * 256 + b.toNat := by
      rw [show m * 256 ^ (s.length + 1) + (b.toNat * 256 ^ s.length + b2i s)
          = b2i s + 256 ^ s.length * (m * 256 + b.toNat) by ring, Nat.add_mul_div_left _ _ hpos,
        Nat.div_eq_of_lt (b2i_lt s), Nat.zero_add]
    rw [hdiv, show m * 256 ^ (s.length + 1) + (b.toNat * 256 ^ s.length + b2i s)
      = (m * 256 + b.toNat) * 256 ^ s.length + b2i s by ring, ih]
    congr 1
    apply BitVec.eq_of_toNat_eq
    have hb := b.isLt
    simp only [BitVec.toNat_ofNat]
    omega

/-- `be32` inverts `BE32` (R13). -/
@[simp] theorem bytesWord_wordBytes (w : Word) : bytesWord (wordBytes w) = w := by
  apply BitVec.eq_of_toNat_eq
  rw [bytesWord, wordBytes, b2i_i2b, BitVec.toNat_ofNat]
  have := w.isLt
  omega

/-- `BE32` inverts `be32` on four bytes (R13). -/
theorem wordBytes_bytesWord (s : Bytes) (h : s.length = 4) : wordBytes (bytesWord s) = s := by
  have hlt := b2i_lt s
  rw [h] at hlt
  rw [bytesWord, wordBytes, BitVec.toNat_ofNat, Nat.mod_eq_of_lt (by simpa using hlt)]
  have := i2b_b2i s
  rwa [h] at this

/-- `rol` is the rotation of bit vectors (R12). -/
theorem rol_eq_rotateLeft (a : Word) (n : Nat) (h : n < 32) : rol a n = a.rotateLeft n := by
  rw [rol, BitVec.rotateLeft_def, Nat.mod_eq_of_lt h]

/-- `be32` of four bytes: the first is the most significant (R13). -/
theorem bytesWord_four (a b c d : Byte) : bytesWord [a, b, c, d] = a ++ b ++ c ++ d := by
  apply BitVec.eq_of_toNat_eq
  have ha := a.isLt
  have hb := b.isLt
  have hc := c.isLt
  have hd := d.isLt
  simp only [bytesWord, b2i, List.foldl_cons, List.foldl_nil, BitVec.toNat_ofNat, BitVec.toNat_append]
  rw [← Nat.shiftLeft_add_eq_or_of_lt hb, ← Nat.shiftLeft_add_eq_or_of_lt hc, ← Nat.shiftLeft_add_eq_or_of_lt hd]
  simp only [Nat.shiftLeft_eq]
  omega

/-- `BE32` of a word: its most significant byte first (R13). -/
theorem wordBytes_eq (w : Word) :
    wordBytes w = [w.extractLsb' 24 8, w.extractLsb' 16 8, w.extractLsb' 8 8, w.extractLsb' 0 8] := by
  simp only [wordBytes, i2b, List.cons.injEq, and_true]
  refine ⟨?_, ?_, ?_, ?_⟩ <;> apply BitVec.eq_of_toNat_eq <;>
    simp [BitVec.extractLsb'_toNat, Nat.shiftRight_eq_div_pow]

/-- The n-byte encoding of x, byte by byte (R13). -/
theorem i2b_eq_map (n x : Nat) :
    i2b n x = (List.range n).map fun i => BitVec.ofNat 8 (x / 256 ^ (n - 1 - i)) := by
  induction n with
  | zero => rfl
  | succ n ih =>
    rw [i2b, ih, List.range_succ_eq_map, List.map_cons, List.map_map]
    congr 1
    apply List.map_congr_left
    intro i _
    simp only [Function.comp]
    congr 3
    omega

@[simp] theorem slice_length (s : Bytes) (a n : Nat) : (slice s a n).length = min n (s.length - a) := by
  simp [slice]

theorem slice_eq_take_drop (s : Bytes) (a n : Nat) : slice s a n = (s.drop a).take n := rfl

@[simp] theorem xorBytes_length (s t : Bytes) : (xorBytes s t).length = min s.length t.length := by
  simp [xorBytes]

/-- XOR with the same sequence twice gives the first back (R11). -/
theorem xorBytes_cancel (s t : Bytes) (h : s.length ≤ t.length) : xorBytes (xorBytes s t) t = s := by
  induction s generalizing t with
  | nil => simp [xorBytes]
  | cons a s ih =>
    cases t with
    | nil => simp at h
    | cons b t =>
      have := ih t (by simpa using h)
      simp only [xorBytes, List.zipWith_cons_cons] at this ⊢
      rw [this, BitVec.xor_assoc, BitVec.xor_self, BitVec.xor_zero]

@[simp] theorem blocks_length (s : Bytes) : (blocks s).length = s.length / 16 := by simp [blocks]

/-- Every whole block has 16 bytes (R78). -/
theorem length_of_mem_blocks (s b : Bytes) (h : b ∈ blocks s) : b.length = 16 := by
  simp only [blocks, List.mem_map, List.mem_range] at h
  obtain ⟨i, hi, rfl⟩ := h
  simp only [block, slice_length]
  omega

/-- The blocks of a block followed by a sequence (R78). -/
theorem blocks_append (b s : Bytes) (h : b.length = 16) : blocks (b ++ s) = b :: blocks s := by
  have hlen : (b ++ s).length / 16 = s.length / 16 + 1 := by
    rw [List.length_append, h]; omega
  rw [blocks, hlen, List.range_succ_eq_map, List.map_cons, List.map_map, blocks]
  congr 1
  · simp [block, slice, ← h]
  · apply List.map_congr_left
    intro i _
    simp only [Function.comp, block, slice]
    rw [show 16 * (i + 1) = b.length + 16 * i by omega, List.drop_length_add_append]

@[simp] theorem blocks_nil : blocks [] = [] := rfl

/-- Cutting a list of 16-byte blocks joined together gives the list back (R78). -/
theorem blocks_flatten (bs : List Bytes) (h : ∀ b ∈ bs, b.length = 16) : blocks bs.flatten = bs := by
  induction bs with
  | nil => rfl
  | cons b bs ih =>
    rw [List.flatten_cons, blocks_append _ _ (h b (by simp)), ih (fun x hx => h x (by simp [hx]))]

/-- A sequence of whole blocks is its blocks joined (R78). -/
theorem flatten_blocks (s : Bytes) (h : s.length % 16 = 0) : (blocks s).flatten = s := by
  induction hn : s.length / 16 generalizing s with
  | zero =>
    have : s = [] := List.length_eq_zero_iff.mp (by omega)
    simp [this]
  | succ n ih =>
    have hs : s = s.take 16 ++ s.drop 16 := (List.take_append_drop 16 s).symm
    have hl : (s.take 16).length = 16 := by simp; omega
    conv_lhs => rw [hs]
    rw [blocks_append _ _ hl, List.flatten_cons, ih (s.drop 16) (by simp; omega) (by simp; omega), ← hs]

end Sys2Proof.Machine
end

