-- ==== Sys2Proof/Laws/Cipher.lean ====
section
/-!
SUPPORT. Laws of the block transform, the key schedule and the modes (Machine/CipherEngine.lean, CipherModes.lean).
-/

namespace Sys2Proof.Machine

@[simp] theorem keyExpand_length (key : Bytes) : (keyExpand key).length = 32 := by simp [keyExpand]

@[simp] theorem Cipher.ofKey_rke (key : Bytes) : (Cipher.ofKey key).rke.toList = keyExpand key := rfl

@[simp] theorem Cipher.ofKey_rkd (key : Bytes) : (Cipher.ofKey key).rkd.toList = (keyExpand key).reverse := rfl

@[simp] theorem Cipher.ofKey_keyv (key : Bytes) : (Cipher.ofKey key).keyv = true := rfl

@[simp] theorem Quad.reverseBytes_length (x : Quad) : x.reverseBytes.length = 16 := by simp [Quad.reverseBytes]

@[simp] theorem crypt_length (rk : List Word) (blk : Bytes) : (crypt rk blk).length = 16 :=
  Quad.reverseBytes_length _

/-- The window read backwards: the output words of a run are the input words of the reversed run (R154). -/
def Quad.swap (x : Quad) : Quad := { x0 := x.x3, x1 := x.x2, x2 := x.x1, x3 := x.x0 }

@[simp] theorem Quad.swap_swap (x : Quad) : x.swap.swap = x := rfl

theorem slice_append_left (s t : Bytes) (n : Nat) (h : s.length = n) : slice (s ++ t) 0 n = s := by
  simp [slice, ← h]

theorem slice_append_right (s t : Bytes) (a n : Nat) (h : s.length ≤ a) :
    slice (s ++ t) a n = slice t (a - s.length) n := by
  simp [slice, List.drop_append, List.drop_eq_nil_of_le h]

/-- Reading the output bytes as four words gives the window backwards (R151). -/
@[simp] theorem Quad.ofBytes_reverseBytes (x : Quad) : Quad.ofBytes x.reverseBytes = x.swap := by
  simp only [Quad.ofBytes, Quad.reverseBytes, Quad.swap, Quad.mk.injEq]
  have hd (w : Word) (n : Nat) (h : 4 ≤ n) : (wordBytes w).drop n = [] :=
    List.drop_eq_nil_of_le (by simpa using h)
  refine ⟨?_, ?_, ?_, ?_⟩ <;> simp [slice, List.drop_append, List.take_of_length_le, hd]

/-- Writing the four words of 16 bytes backwards from the swapped window gives the bytes (R151). -/
theorem Quad.reverseBytes_swap_ofBytes (b : Bytes) (h : b.length = 16) :
    (Quad.ofBytes b).swap.reverseBytes = b := by
  have hl (a : Nat) (ha : a ≤ 12) : (slice b a 4).length = 4 := by simp [h]; omega
  simp only [Quad.swap, Quad.reverseBytes, Quad.ofBytes]
  rw [wordBytes_bytesWord _ (hl 0 (by omega)), wordBytes_bytesWord _ (hl 4 (by omega)),
    wordBytes_bytesWord _ (hl 8 (by omega)), wordBytes_bytesWord _ (hl 12 (by omega))]
  have h3 : slice b 12 4 = b.drop 12 := List.take_of_length_le (by simp [h])
  have h2 : slice b 8 4 ++ b.drop 12 = b.drop 8 := by
    simpa [slice, List.drop_drop] using List.take_append_drop 4 (b.drop 8)
  have h1 : slice b 4 4 ++ b.drop 8 = b.drop 4 := by
    simpa [slice, List.drop_drop] using List.take_append_drop 4 (b.drop 4)
  rw [h3, List.append_assoc, List.append_assoc, h2, h1]
  exact List.take_append_drop 4 b

/-- A round with the same key undoes a round, seen from the other end of the window (R154). -/
theorem cryptRound_swap (x : Quad) (rk : Word) : cryptRound (cryptRound x rk).swap rk = x.swap := by
  have h (a b c : Word) : a ^^^ b ^^^ c = c ^^^ b ^^^ a := by ac_rfl
  simp only [cryptRound, Quad.swap, Quad.mk.injEq, true_and]
  rw [show x.x3 ^^^ x.x2 ^^^ x.x1 = x.x1 ^^^ x.x2 ^^^ x.x3 from h _ _ _, BitVec.xor_assoc, BitVec.xor_self,
    BitVec.xor_zero]

@[simp] theorem pad16_length (p : Bytes) : (pad16 p).length = 16 * (p.length / 16 + 1) := by
  simp [pad16]; omega

theorem pad16_length_mod (p : Bytes) : (pad16 p).length % 16 = 0 := by simp

@[simp] theorem ecb_length (rk : List Word) (bs : List Bytes) : (ecb rk bs).length = 16 * bs.length := by
  induction bs with
  | nil => rfl
  | cons b bs ih => simp only [ecb, List.flatMap_cons] at ih ⊢; simp [ih]; omega

@[simp] theorem cbcEncBlocks_length (rk : List Word) (prev : Bytes) (bs : List Bytes) :
    (cbcEncBlocks rk prev bs).length = 16 * bs.length := by
  induction bs generalizing prev with
  | nil => rfl
  | cons b bs ih => simp [cbcEncBlocks, ih]; omega

theorem cbcDecBlocks_length_le (rk : List Word) (prev : Bytes) (bs : List Bytes) :
    (cbcDecBlocks rk prev bs).length ≤ 16 * bs.length := by
  induction bs generalizing prev with
  | nil => simp [cbcDecBlocks]
  | cons b bs ih => have := ih b; simp [cbcDecBlocks]; omega

/-- Removing the pad never lengthens a sequence (R171). -/
theorem unpad_length_le (q p : Bytes) (h : unpad q = some p) : p.length ≤ q.length := by
  unfold unpad at h
  split at h
  · simp at h
  · split at h
    · simp at h
    · simp only [Option.some.injEq] at h
      rw [← h, List.length_take]
      omega

/-- `unpadResult` answers the engine it was given, or E_BAD_PADDING (R173, R175). -/
theorem unpadResult_cases (eng : Engine) (q : Bytes) :
    unpadResult eng q = .fail .badPadding ∨ ∃ p, unpad q = some p ∧ unpadResult eng q = .ok eng p := by
  unfold unpadResult
  cases h : unpad q with
  | none => exact .inl rfl
  | some p => exact .inr ⟨p, rfl, rfl⟩

end Sys2Proof.Machine
end

