-- ==== Sys2Proof/Laws/Curve.lean ====
section
/-!
SUPPORT. Laws of the field arithmetic (Machine/Curve.lean).
-/

namespace Sys2Proof.Machine

theorem curveP_pos : 0 < curveP := by decide

theorem fmul_lt (x y : Nat) : fmul x y < curveP := Nat.mod_lt _ curveP_pos

/-- Square and multiply, in one equation: after the bits below n the accumulator has been squared n times and has
the power by those bits as a factor. -/
theorem fpowBits_eq (x e n acc : Nat) (h : acc < curveP) :
    fpowBits x e n acc = acc ^ 2 ^ n * x ^ (e % 2 ^ n) % curveP := by
  induction n generalizing acc with
  | zero => simp [fpowBits, Nat.mod_one, Nat.mod_eq_of_lt h]
  | succ n ih =>
    have hmod : e % 2 ^ (n + 1) = e % 2 ^ n + 2 ^ n * (e.testBit n).toNat := by
      rw [Nat.mod_pow_succ, Nat.toNat_testBit]
    simp only [fpowBits]
    cases hb : e.testBit n with
    | false =>
      simp only [Bool.false_eq_true, if_false]
      rw [ih _ (fmul_lt _ _), hmod, hb]
      simp only [fmul, Bool.toNat_false, Nat.mul_zero, Nat.add_zero]
      rw [Nat.mul_mod, ← Nat.pow_mod, ← Nat.mul_mod]
      congr 1
      ring
    | true =>
      simp only [if_true]
      rw [ih _ (fmul_lt _ _), hmod, hb]
      simp only [fmul, Bool.toNat_true, Nat.mul_one]
      rw [Nat.mod_mul_mod, Nat.mul_mod, ← Nat.pow_mod, ← Nat.mul_mod]
      congr 1
      ring

/-- `fpow` is the power modulo P, for every exponent of 256 bits. -/
theorem fpow_eq (x e : Nat) (h : e < 2 ^ 256) : fpow x e = x ^ e % curveP := by
  rw [fpow, fpowBits_eq _ _ _ _ (by decide), Nat.mod_eq_of_lt h, Nat.one_pow, Nat.one_mul]

/-- Inversion of a number that is not 0 (R204). -/
theorem finv_of_ne_zero (x : Nat) (h : x ≠ 0) : finv x = x ^ (curveP - 2) % curveP := by
  rw [finv, if_neg h, fpow_eq _ _ (by decide)]

theorem finv_lt (x : Nat) : finv x < curveP := by
  by_cases h : x = 0
  · rw [finv, if_pos h]
    exact Nat.mod_lt _ curveP_pos
  · rw [finv_of_ne_zero x h]
    exact Nat.mod_lt _ curveP_pos

end Sys2Proof.Machine
end

