-- ==== Sys2Proof/Laws/Hash.lean ====
section
/-!
SUPPORT. Laws of the hash contexts (Machine/Hash.lean).
-/

namespace Sys2Proof.Machine

@[simp] theorem HashCtx.absorbByte_len (ctx : HashCtx) (b : Byte) : (ctx.absorbByte b).len = ctx.len := by
  unfold HashCtx.absorbByte
  split <;> rfl

/-- One byte moves FILL on by one, and from 63 back to 0 (R110). -/
theorem HashCtx.absorbByte_fill (ctx : HashCtx) (b : Byte) :
    (ctx.absorbByte b).fill.val = (ctx.fill.val + 1) % 64 := by
  have := ctx.fill.isLt
  unfold HashCtx.absorbByte
  split
  · simp only; omega
  · simp only [Fin.val_zero]; omega

@[simp] theorem HashCtx.absorb_nil (ctx : HashCtx) : ctx.absorb [] = ctx := rfl

@[simp] theorem HashCtx.absorb_cons (ctx : HashCtx) (b : Byte) (s : Bytes) :
    ctx.absorb (b :: s) = (ctx.absorbByte b).absorb s := rfl

/-- Absorbing in two parts is absorbing the whole (R110). -/
theorem HashCtx.absorb_append (ctx : HashCtx) (s t : Bytes) : ctx.absorb (s ++ t) = (ctx.absorb s).absorb t :=
  List.foldl_append ..

@[simp] theorem HashCtx.absorb_len (ctx : HashCtx) (s : Bytes) : (ctx.absorb s).len = ctx.len := by
  induction s generalizing ctx with
  | nil => rfl
  | cons b s ih => simp [ih]

theorem HashCtx.absorb_fill (ctx : HashCtx) (s : Bytes) :
    (ctx.absorb s).fill.val = (ctx.fill.val + s.length) % 64 := by
  induction s generalizing ctx with
  | nil => have := ctx.fill.isLt; simp; omega
  | cons b s ih => rw [HashCtx.absorb_cons, ih, HashCtx.absorbByte_fill, List.length_cons]; omega

/-- Absorbing depends on LEN only by keeping it. -/
theorem HashCtx.absorb_with_len (ctx : HashCtx) (n : BitVec 64) (s : Bytes) :
    HashCtx.absorb { ctx with len := n } s = { ctx.absorb s with len := n } := by
  induction s generalizing ctx with
  | nil => rfl
  | cons b s ih =>
    have h : HashCtx.absorbByte { ctx with len := n } b = { ctx.absorbByte b with len := n } := by
      simp only [HashCtx.absorbByte]
      split <;> rfl
    rw [HashCtx.absorb_cons, HashCtx.absorb_cons, h, ih]

@[simp] theorem HashCtx.update_len (ctx : HashCtx) (s : Bytes) :
    (ctx.update s).len = ctx.len + BitVec.ofNat 64 s.length := rfl

@[simp] theorem HashCtx.update_v (ctx : HashCtx) (s : Bytes) : (ctx.update s).v = (ctx.absorb s).v := rfl

@[simp] theorem HashCtx.update_fill (ctx : HashCtx) (s : Bytes) : (ctx.update s).fill = (ctx.absorb s).fill := rfl

theorem HashCtx.new_wf : HashCtx.new.wf := rfl

/-- `FILL = LEN mod 64` is kept (R23). -/
theorem HashCtx.update_wf (ctx : HashCtx) (s : Bytes) (h : ctx.wf) : (ctx.update s).wf := by
  unfold HashCtx.wf at h ⊢
  rw [HashCtx.update_fill, HashCtx.absorb_fill, HashCtx.update_len, BitVec.toNat_add, BitVec.toNat_ofNat, h]
  omega

@[simp] theorem digestBytes_length (v : Vector Word 8) : (digestBytes v).length = 32 := by
  have h (l : List Word) : (l.flatMap wordBytes).length = 4 * l.length := by
    induction l with
    | nil => rfl
    | cons w l ih => simp [ih]; omega
  simp [digestBytes, h]

@[simp] theorem HashCtx.finalize_length (ctx : HashCtx) : ctx.finalize.length = 32 := digestBytes_length _

/-- The padding has k + 9 bytes (R109). -/
theorem hashPad_length (len : BitVec 64) : (hashPad len).length = padZeros len + 9 := by
  simp [hashPad]

end Sys2Proof.Machine
end

