-- ==== Sys2Proof/Laws/Scheme.lean ====
section
/-!
SUPPORT. Laws of the SM2 scheme (Machine/Scheme.lean).
-/

namespace Sys2Proof.Machine

@[simp] theorem kdfBlock_length (seed : Bytes) (ct : Nat) : (kdfBlock seed ct).length = 32 :=
  HashCtx.finalize_length _

/-- n blocks of the key derivation have 32·n bytes (R230). -/
theorem kdfBlocks_length (seed : Bytes) (n : Nat) :
    ((List.range n).flatMap fun i => kdfBlock seed (i + 1)).length = 32 * n := by
  induction n with
  | zero => rfl
  | succ n ih => rw [List.range_succ, List.flatMap_append, List.length_append, ih]; simp; omega

@[simp] theorem keystream_length (s : Point) (n : Nat) : (keystream s n).length = n := by
  unfold keystream kdf
  rw [List.length_take, kdfBlocks_length]
  omega

@[simp] theorem tag_length (s : Point) (m : Bytes) : (tag s m).length = 32 := HashCtx.finalize_length _

@[simp] theorem ciphertext_length (x y : Nat) (c3 c2 : Bytes) :
    (ciphertext x y c3 c2).length = 65 + c3.length + c2.length := by
  simp [ciphertext]; omega

@[simp] theorem keyPair_length (d x y : Nat) : (keyPair d x y).length = 96 := by simp [keyPair]

/-- A finished pass of SM2.ENC gives 97 + |m| bytes (R233). -/
theorem encryptWith_length (q : Point) (m : Bytes) (k : Nat) (out : Bytes) (h : encryptWith q m k = some out) :
    out.length = 97 + m.length := by
  simp only [encryptWith] at h
  split at h
  · simp at h
  · simp only [Option.some.injEq] at h
    simp [← h]

/-- What SM2.ENC's pass answers after its draw. -/
theorem encResult_cases (eng : Engine) (inp : Bytes) (a : RngAnswer Scalar) :
    (∃ code, a = .fail code ∧ encResult eng inp a = .fail (.rng code)) ∨
    (∃ k, a = .ok k ∧ encryptWith (.affine (encQx inp) (encQy inp)) (encPlain inp) k.val = none ∧
      encResult eng inp a = .retry inp) ∨
    (∃ k out, a = .ok k ∧ encryptWith (.affine (encQx inp) (encQy inp)) (encPlain inp) k.val = some out ∧
      encResult eng inp a = .ok eng out) := by
  cases a with
  | fail code => exact .inl ⟨code, rfl, rfl⟩
  | ok k =>
    cases h : encryptWith (.affine (encQx inp) (encQy inp)) (encPlain inp) k.val with
    | none => exact .inr (.inl ⟨k, rfl, h, by simp [encResult, h]⟩)
    | some out => exact .inr (.inr ⟨k, out, rfl, h, by simp [encResult, h]⟩)

/-- A pass of SM2.ENC on an input that meets its two checks: one draw, and what follows from its answer (R233). -/
theorem opSm2Enc_of_valid (inp : Bytes) (eng : Engine) (rng : Rng) (hl : 64 ≤ inp.length)
    (hc : onCurve (encQx inp) (encQy inp) = true) :
    opSm2Enc inp eng rng = (encResult eng inp rng.drawScalar.1, rng.drawScalar.2) := by
  rw [opSm2Enc, if_neg (by omega), if_neg (by simp [hc])]

/-- What steps 4 to 7 of SM2.DEC answer (R234). -/
theorem decryptWith_cases (eng : Engine) (s : Point) (c : Bytes) :
    decryptWith eng s c = .fail .authFailure ∨
    (tag s (xorBytes (ctC2 c) (keystream s (ctC2 c).length)) = ctC3 c ∧
      decryptWith eng s c = .ok eng (xorBytes (ctC2 c) (keystream s (ctC2 c).length))) := by
  by_cases h : tag s (xorBytes (ctC2 c) (keystream s (ctC2 c).length)) = ctC3 c
  · exact .inr ⟨h, by simp [decryptWith, h]⟩
  · exact .inl (by simp [decryptWith, h])

/-- What SM2.DEC answers once the shared point is known (R234). -/
theorem decResult_cases (eng : Engine) (c : Bytes) (s : Point) :
    (s = .inf ∧ decResult eng c s = .fail .invalidKey) ∨ (s ≠ .inf ∧ decResult eng c s = decryptWith eng s c) := by
  cases s with
  | inf => exact .inl ⟨rfl, rfl⟩
  | affine x y => exact .inr ⟨by simp, rfl⟩

theorem ciphertext_drop_1 (x y : Nat) (c3 c2 : Bytes) :
    (ciphertext x y c3 c2).drop 1 = i2b32 x ++ (i2b32 y ++ (c3 ++ c2)) := by simp [ciphertext]

theorem ciphertext_drop_33 (x y : Nat) (c3 c2 : Bytes) :
    (ciphertext x y c3 c2).drop 33 = i2b32 y ++ (c3 ++ c2) := by
  rw [show 33 = 1 + 32 by rfl, ← List.drop_drop, ciphertext_drop_1, List.drop_left' (by simp)]

theorem ciphertext_drop_65 (x y : Nat) (c3 c2 : Bytes) : (ciphertext x y c3 c2).drop 65 = c3 ++ c2 := by
  rw [show 65 = 33 + 32 by rfl, ← List.drop_drop, ciphertext_drop_33, List.drop_left' (by simp)]

/-! The fields of a ciphertext are those it was laid out from (R83). -/

@[simp] theorem ctMarker_ciphertext (x y : Nat) (c3 c2 : Bytes) : ctMarker (ciphertext x y c3 c2) = 0x04#8 := rfl

theorem ctX_ciphertext (x y : Nat) (c3 c2 : Bytes) (h : x < 2 ^ 256) : ctX (ciphertext x y c3 c2) = x := by
  rw [ctX, slice, ciphertext_drop_1, List.take_left' (by simp), b2i_i2b32 x h]

theorem ctY_ciphertext (x y : Nat) (c3 c2 : Bytes) (h : y < 2 ^ 256) : ctY (ciphertext x y c3 c2) = y := by
  rw [ctY, slice, ciphertext_drop_33, List.take_left' (by simp), b2i_i2b32 y h]

theorem ctC3_ciphertext (x y : Nat) (c3 c2 : Bytes) (h : c3.length = 32) : ctC3 (ciphertext x y c3 c2) = c3 := by
  rw [ctC3, slice, ciphertext_drop_65, List.take_left' h]

theorem ctC2_ciphertext (x y : Nat) (c3 c2 : Bytes) (h : c3.length = 32) : ctC2 (ciphertext x y c3 c2) = c2 := by
  rw [ctC2, show 97 = 65 + 32 by rfl, ← List.drop_drop, ciphertext_drop_65, List.drop_left' h]

/-! The fields of SM2.DEC's input are those it was laid out from (R82). -/

theorem decScalar_append (d : Nat) (c : Bytes) (h : d < 2 ^ 256) : decScalar (i2b32 d ++ c) = d := by
  simp only [decScalar, slice, List.drop_zero]
  rw [List.take_left' (by simp), b2i_i2b32 d h]

theorem decCipher_append (d : Nat) (c : Bytes) : decCipher (i2b32 d ++ c) = c := by
  rw [decCipher, List.drop_left' (by simp)]

end Sys2Proof.Machine
end

