-- ==== Sys2Proof/Laws/State.lean ====
section
/-!
SUPPORT. The fields of the state after each shared update, one lemma per field per update, true by rfl.
-/

namespace Sys2Proof.Machine

@[simp] theorem State.takeInput_eng (s : State) : s.takeInput.eng = s.eng := rfl
@[simp] theorem State.takeInput_iq (s : State) : s.takeInput.iq = [] := rfl
@[simp] theorem State.takeInput_oq (s : State) : s.takeInput.oq = [] := rfl
@[simp] theorem State.takeInput_iovf (s : State) : s.takeInput.iovf = false := rfl
@[simp] theorem State.takeInput_result (s : State) : s.takeInput.result = s.result := rfl
@[simp] theorem State.takeInput_rngerr (s : State) : s.takeInput.rngerr = s.rngerr := rfl
@[simp] theorem State.takeInput_busy (s : State) : s.takeInput.busy = s.busy := rfl
@[simp] theorem State.takeInput_rng (s : State) : s.takeInput.rng = s.rng := rfl
@[simp] theorem State.takeInput_host (s : State) : s.takeInput.host = s.host := rfl

@[simp] theorem State.raise_eng (s : State) (f : Failure) : (s.raise f).eng = s.eng := rfl
@[simp] theorem State.raise_iq (s : State) (f : Failure) : (s.raise f).iq = s.iq := rfl
@[simp] theorem State.raise_oq (s : State) (f : Failure) : (s.raise f).oq = s.oq := rfl
@[simp] theorem State.raise_iovf (s : State) (f : Failure) : (s.raise f).iovf = s.iovf := rfl
@[simp] theorem State.raise_result (s : State) (f : Failure) : (s.raise f).result = f.code := rfl
@[simp] theorem State.raise_rngerr (s : State) (f : Failure) : (s.raise f).rngerr = f.rngerr s.rngerr := rfl
@[simp] theorem State.raise_busy (s : State) (f : Failure) : (s.raise f).busy = s.busy := rfl
@[simp] theorem State.raise_rng (s : State) (f : Failure) : (s.raise f).rng = s.rng := rfl
@[simp] theorem State.raise_host (s : State) (f : Failure) : (s.raise f).host = s.host := rfl

@[simp] theorem State.resetCore_eng (s : State) : s.resetCore.eng = { h := HashCtx.new, c := Cipher.unkeyed } := rfl
@[simp] theorem State.resetCore_iq (s : State) : s.resetCore.iq = [] := rfl
@[simp] theorem State.resetCore_oq (s : State) : s.resetCore.oq = [] := rfl
@[simp] theorem State.resetCore_iovf (s : State) : s.resetCore.iovf = false := rfl
@[simp] theorem State.resetCore_result (s : State) : s.resetCore.result = .ok := rfl
@[simp] theorem State.resetCore_rngerr (s : State) : s.resetCore.rngerr = 0 := rfl
@[simp] theorem State.resetCore_busy (s : State) : s.resetCore.busy = none := rfl
@[simp] theorem State.resetCore_rng (s : State) : s.resetCore.rng = s.rng := rfl
@[simp] theorem State.resetCore_host (s : State) : s.resetCore.host = s.host := rfl

@[simp] theorem State.withAgenda_eng (s : State) (as : List HostAction) : (s.withAgenda as).eng = s.eng := rfl
@[simp] theorem State.withAgenda_iq (s : State) (as : List HostAction) : (s.withAgenda as).iq = s.iq := rfl
@[simp] theorem State.withAgenda_oq (s : State) (as : List HostAction) : (s.withAgenda as).oq = s.oq := rfl
@[simp] theorem State.withAgenda_iovf (s : State) (as : List HostAction) : (s.withAgenda as).iovf = s.iovf := rfl
@[simp] theorem State.withAgenda_result (s : State) (as : List HostAction) : (s.withAgenda as).result = s.result := rfl
@[simp] theorem State.withAgenda_rngerr (s : State) (as : List HostAction) : (s.withAgenda as).rngerr = s.rngerr := rfl
@[simp] theorem State.withAgenda_busy (s : State) (as : List HostAction) : (s.withAgenda as).busy = s.busy := rfl
@[simp] theorem State.withAgenda_rng (s : State) (as : List HostAction) : (s.withAgenda as).rng = s.rng := rfl
@[simp] theorem State.withAgenda_host (s : State) (as : List HostAction) : (s.withAgenda as).host = { s.host with agenda := as } := rfl

@[simp] theorem State.pop_eng (s : State) : s.pop.eng = s.eng := rfl
@[simp] theorem State.pop_iq (s : State) : s.pop.iq = s.iq := rfl
@[simp] theorem State.pop_oq (s : State) : s.pop.oq = s.oq.tail := rfl
@[simp] theorem State.pop_iovf (s : State) : s.pop.iovf = s.iovf := rfl
@[simp] theorem State.pop_result (s : State) : s.pop.result = s.result := rfl
@[simp] theorem State.pop_rngerr (s : State) : s.pop.rngerr = s.rngerr := rfl
@[simp] theorem State.pop_busy (s : State) : s.pop.busy = s.busy := rfl
@[simp] theorem State.pop_rng (s : State) : s.pop.rng = s.rng := rfl
@[simp] theorem State.pop_host (s : State) : s.pop.host = s.host := rfl

@[simp] theorem State.withFetchWord_eng (s : State) (n w : Nat) : (s.withFetchWord n w).eng = s.eng := rfl
@[simp] theorem State.withFetchWord_iq (s : State) (n w : Nat) : (s.withFetchWord n w).iq = s.iq := rfl
@[simp] theorem State.withFetchWord_oq (s : State) (n w : Nat) : (s.withFetchWord n w).oq = s.oq := rfl
@[simp] theorem State.withFetchWord_iovf (s : State) (n w : Nat) : (s.withFetchWord n w).iovf = s.iovf := rfl
@[simp] theorem State.withFetchWord_result (s : State) (n w : Nat) : (s.withFetchWord n w).result = s.result := rfl
@[simp] theorem State.withFetchWord_rngerr (s : State) (n w : Nat) : (s.withFetchWord n w).rngerr = s.rngerr := rfl
@[simp] theorem State.withFetchWord_busy (s : State) (n w : Nat) : (s.withFetchWord n w).busy = none := rfl
@[simp] theorem State.withFetchWord_rng (s : State) (n w : Nat) : (s.withFetchWord n w).rng = s.rng := rfl
@[simp] theorem State.withFetchWord_host (s : State) (n w : Nat) : (s.withFetchWord n w).host = { s.host with agenda := .write .cmd (BitVec.ofNat 32 (w % 2 ^ n)) :: s.host.agenda } := rfl

@[simp] theorem State.withProgram_eng (s : State) (as : List HostAction) : (s.withProgram as).eng = s.eng := rfl
@[simp] theorem State.withProgram_iq (s : State) (as : List HostAction) : (s.withProgram as).iq = s.iq := rfl
@[simp] theorem State.withProgram_oq (s : State) (as : List HostAction) : (s.withProgram as).oq = s.oq := rfl
@[simp] theorem State.withProgram_iovf (s : State) (as : List HostAction) : (s.withProgram as).iovf = s.iovf := rfl
@[simp] theorem State.withProgram_result (s : State) (as : List HostAction) : (s.withProgram as).result = s.result := rfl
@[simp] theorem State.withProgram_rngerr (s : State) (as : List HostAction) : (s.withProgram as).rngerr = s.rngerr := rfl
@[simp] theorem State.withProgram_busy (s : State) (as : List HostAction) : (s.withProgram as).busy = s.busy := rfl
@[simp] theorem State.withProgram_rng (s : State) (as : List HostAction) : (s.withProgram as).rng = s.rng := rfl
@[simp] theorem State.withProgram_host (s : State) (as : List HostAction) : (s.withProgram as).host = { s.host with agenda := as } := rfl

@[simp] theorem State.withAnswers_eng (s : State) (ivs : List (RngAnswer (Vector Byte 16))) (ks : List (RngAnswer Scalar)) : (s.withAnswers ivs ks).eng = s.eng := rfl
@[simp] theorem State.withAnswers_iq (s : State) (ivs : List (RngAnswer (Vector Byte 16))) (ks : List (RngAnswer Scalar)) : (s.withAnswers ivs ks).iq = s.iq := rfl
@[simp] theorem State.withAnswers_oq (s : State) (ivs : List (RngAnswer (Vector Byte 16))) (ks : List (RngAnswer Scalar)) : (s.withAnswers ivs ks).oq = s.oq := rfl
@[simp] theorem State.withAnswers_iovf (s : State) (ivs : List (RngAnswer (Vector Byte 16))) (ks : List (RngAnswer Scalar)) : (s.withAnswers ivs ks).iovf = s.iovf := rfl
@[simp] theorem State.withAnswers_result (s : State) (ivs : List (RngAnswer (Vector Byte 16))) (ks : List (RngAnswer Scalar)) : (s.withAnswers ivs ks).result = s.result := rfl
@[simp] theorem State.withAnswers_rngerr (s : State) (ivs : List (RngAnswer (Vector Byte 16))) (ks : List (RngAnswer Scalar)) : (s.withAnswers ivs ks).rngerr = s.rngerr := rfl
@[simp] theorem State.withAnswers_busy (s : State) (ivs : List (RngAnswer (Vector Byte 16))) (ks : List (RngAnswer Scalar)) : (s.withAnswers ivs ks).busy = s.busy := rfl
@[simp] theorem State.withAnswers_rng (s : State) (ivs : List (RngAnswer (Vector Byte 16))) (ks : List (RngAnswer Scalar)) : (s.withAnswers ivs ks).rng = { s.rng with ivs := ivs, scalars := ks } := rfl
@[simp] theorem State.withAnswers_host (s : State) (ivs : List (RngAnswer (Vector Byte 16))) (ks : List (RngAnswer Scalar)) : (s.withAnswers ivs ks).host = s.host := rfl

@[simp] theorem State.push_eng (s : State) (b : Byte) : (s.push b).eng = s.eng := by
  unfold State.push; split <;> rfl
@[simp] theorem State.push_oq (s : State) (b : Byte) : (s.push b).oq = s.oq := by
  unfold State.push; split <;> rfl
@[simp] theorem State.push_result (s : State) (b : Byte) : (s.push b).result = s.result := by
  unfold State.push; split <;> rfl
@[simp] theorem State.push_rngerr (s : State) (b : Byte) : (s.push b).rngerr = s.rngerr := by
  unfold State.push; split <;> rfl
@[simp] theorem State.push_busy (s : State) (b : Byte) : (s.push b).busy = s.busy := by
  unfold State.push; split <;> rfl
@[simp] theorem State.push_rng (s : State) (b : Byte) : (s.push b).rng = s.rng := by
  unfold State.push; split <;> rfl
@[simp] theorem State.push_host (s : State) (b : Byte) : (s.push b).host = s.host := by
  unfold State.push; split <;> rfl

/-- STATUS as a number: KEYV has weight 1 and IOVF weight 2 (R41). -/
theorem State.statusWord_eq (s : State) :
    s.statusWord = BitVec.ofNat 32 (s.eng.c.keyv.toNat + 2 * s.iovf.toNat) := by
  unfold State.statusWord
  cases s.eng.c.keyv <;> cases s.iovf <;> rfl

/-- A push with room appends (R44). -/
theorem State.push_of_lt (s : State) (b : Byte) (h : s.iq.length < Config.iqBytes) :
    s.push b = { s with iq := s.iq ++ [b] } := if_pos h

/-- A push without room only sets IOVF (R44). -/
theorem State.push_of_not_lt (s : State) (b : Byte) (h : ¬ s.iq.length < Config.iqBytes) :
    s.push b = { s with iovf := true } := if_neg h

@[simp] theorem State.hostRead_eng (s : State) (r : HostReg) : (s.hostRead r).eng = s.eng := by
  cases r <;> rfl
@[simp] theorem State.hostRead_iq (s : State) (r : HostReg) : (s.hostRead r).iq = s.iq := by
  cases r <;> rfl
@[simp] theorem State.hostRead_iovf (s : State) (r : HostReg) : (s.hostRead r).iovf = s.iovf := by
  cases r <;> rfl
@[simp] theorem State.hostRead_result (s : State) (r : HostReg) : (s.hostRead r).result = s.result := by
  cases r <;> rfl
@[simp] theorem State.hostRead_rngerr (s : State) (r : HostReg) : (s.hostRead r).rngerr = s.rngerr := by
  cases r <;> rfl
@[simp] theorem State.hostRead_busy (s : State) (r : HostReg) : (s.hostRead r).busy = s.busy := by
  cases r <;> rfl
@[simp] theorem State.hostRead_rng (s : State) (r : HostReg) : (s.hostRead r).rng = s.rng := by
  cases r <;> rfl

@[simp] theorem State.hostRead_host (s : State) (r : HostReg) :
    (s.hostRead r).host = { s.host with rdata := s.readValue r } := by
  cases r <;> rfl

@[simp] theorem State.hostRead_dout_oq (s : State) : (s.hostRead .dout).oq = s.oq.tail := rfl

/-- Only the read of DOUT changes the output queue (R52). -/
theorem State.hostRead_oq_of_ne (s : State) (r : HostReg) (h : r ≠ .dout) : (s.hostRead r).oq = s.oq := by
  cases r <;> first | rfl | exact absurd rfl h

@[simp] theorem State.finish_ok_eng (s : State) (eng : Engine) (out : Bytes) : (s.finish (.ok eng out)).eng = eng := rfl
@[simp] theorem State.finish_ok_iq (s : State) (eng : Engine) (out : Bytes) : (s.finish (.ok eng out)).iq = s.iq := rfl
@[simp] theorem State.finish_ok_oq (s : State) (eng : Engine) (out : Bytes) : (s.finish (.ok eng out)).oq = out := rfl
@[simp] theorem State.finish_ok_iovf (s : State) (eng : Engine) (out : Bytes) : (s.finish (.ok eng out)).iovf = s.iovf := rfl
@[simp] theorem State.finish_ok_result (s : State) (eng : Engine) (out : Bytes) : (s.finish (.ok eng out)).result = .ok := rfl
@[simp] theorem State.finish_ok_rngerr (s : State) (eng : Engine) (out : Bytes) : (s.finish (.ok eng out)).rngerr = s.rngerr := rfl
@[simp] theorem State.finish_ok_busy (s : State) (eng : Engine) (out : Bytes) : (s.finish (.ok eng out)).busy = s.busy := rfl
@[simp] theorem State.finish_ok_rng (s : State) (eng : Engine) (out : Bytes) : (s.finish (.ok eng out)).rng = s.rng := rfl
@[simp] theorem State.finish_ok_host (s : State) (eng : Engine) (out : Bytes) : (s.finish (.ok eng out)).host = s.host := rfl

@[simp] theorem State.finish_fail_eng (s : State) (f : Failure) : (s.finish (.fail f)).eng = s.eng := rfl
@[simp] theorem State.finish_fail_iq (s : State) (f : Failure) : (s.finish (.fail f)).iq = s.iq := rfl
@[simp] theorem State.finish_fail_oq (s : State) (f : Failure) : (s.finish (.fail f)).oq = s.oq := rfl
@[simp] theorem State.finish_fail_iovf (s : State) (f : Failure) : (s.finish (.fail f)).iovf = s.iovf := rfl
@[simp] theorem State.finish_fail_result (s : State) (f : Failure) : (s.finish (.fail f)).result = f.code := rfl
@[simp] theorem State.finish_fail_rngerr (s : State) (f : Failure) : (s.finish (.fail f)).rngerr = f.rngerr s.rngerr := rfl
@[simp] theorem State.finish_fail_busy (s : State) (f : Failure) : (s.finish (.fail f)).busy = s.busy := rfl
@[simp] theorem State.finish_fail_rng (s : State) (f : Failure) : (s.finish (.fail f)).rng = s.rng := rfl
@[simp] theorem State.finish_fail_host (s : State) (f : Failure) : (s.finish (.fail f)).host = s.host := rfl

@[simp] theorem State.finish_retry_eng (s : State) (inp : Bytes) : (s.finish (.retry inp)).eng = s.eng := rfl
@[simp] theorem State.finish_retry_iq (s : State) (inp : Bytes) : (s.finish (.retry inp)).iq = s.iq := rfl
@[simp] theorem State.finish_retry_oq (s : State) (inp : Bytes) : (s.finish (.retry inp)).oq = s.oq := rfl
@[simp] theorem State.finish_retry_iovf (s : State) (inp : Bytes) : (s.finish (.retry inp)).iovf = s.iovf := rfl
@[simp] theorem State.finish_retry_result (s : State) (inp : Bytes) : (s.finish (.retry inp)).result = s.result := rfl
@[simp] theorem State.finish_retry_rngerr (s : State) (inp : Bytes) : (s.finish (.retry inp)).rngerr = s.rngerr := rfl
@[simp] theorem State.finish_retry_busy (s : State) (inp : Bytes) : (s.finish (.retry inp)).busy = some inp := rfl
@[simp] theorem State.finish_retry_rng (s : State) (inp : Bytes) : (s.finish (.retry inp)).rng = s.rng := rfl
@[simp] theorem State.finish_retry_host (s : State) (inp : Bytes) : (s.finish (.retry inp)).host = s.host := rfl

end Sys2Proof.Machine
end

