-- ==== Sys2Proof/Laws/Ops.lean ====
section
/-!
SUPPORT. The shared operations, each with what it can do said once: the draws, the wrapper, and for every data
command what its semantic function can answer. Proofs about `exec` cite these and do not unfold a meaning.
-/

namespace Sys2Proof.Machine

/-- The semantic function of a data command. -/
def dataOp : Instr → Option Op
  | .sysNop => none
  | .sysSrst => none
  | .sysFlush => none
  | .sm3Init => some opSm3Init
  | .sm3Write => some opSm3Write
  | .sm3Sum => some opSm3Sum
  | .sm3Hash => some opSm3Hash
  | .sm4Setkey => some opSm4Setkey
  | .sm4Enc => some opSm4Enc
  | .sm4Dec => some opSm4Dec
  | .sm4EcbEnc => some opSm4EcbEnc
  | .sm4EcbDec => some opSm4EcbDec
  | .sm4CbcEnc => some opSm4CbcEnc
  | .sm4CbcDec => some opSm4CbcDec
  | .sm2Keygen => some opSm2Keygen
  | .sm2Enc => some opSm2Enc
  | .sm2Dec => some opSm2Dec

theorem exec_sysNop (s : State) : exec .sysNop s = .next s := rfl

theorem exec_sysSrst (s : State) : exec .sysSrst s = .next s.resetCore := rfl

theorem exec_sysFlush (s : State) : exec .sysFlush s = .next { s.takeInput with result := .ok } := rfl

/-- A data command runs its semantic function in the wrapper (R71). -/
theorem exec_of_dataOp (i : Instr) (op : Op) (h : dataOp i = some op) (s : State) :
    exec i s = runCommand op s := by
  cases i <;> simp only [dataOp, Option.some.injEq, reduceCtorEq] at h <;> subst h <;> rfl

theorem dataOp_isSome (i : Instr) : (dataOp i).isSome = i.isData := by cases i <;> rfl

theorem exists_dataOp (i : Instr) (h : i.isData = true) : ∃ op, dataOp i = some op :=
  Option.isSome_iff_exists.mp ((dataOp_isSome i).trans h)

theorem isData_of_dataOp (i : Instr) (op : Op) (h : dataOp i = some op) : i.isData = true := by
  rw [← dataOp_isSome, h]; rfl

/-- The wrapper when IOVF was set (R282). -/
theorem runCommand_of_iovf (op : Op) (s : State) (h : s.iovf = true) :
    runCommand op s = .next (s.takeInput.raise .inputOverflow) := by simp [runCommand, h]

/-- The wrapper when IOVF was clear (R71). -/
theorem runCommand_of_not_iovf (op : Op) (s : State) (h : s.iovf = false) :
    runCommand op s = .next (s.takeInput.apply op s.iq) := by simp [runCommand, h]

theorem State.apply_eq (op : Op) (inp : Bytes) (s : State) :
    s.apply op inp = { s with rng := (op inp s.eng s.rng).2 }.finish (op inp s.eng s.rng).1 := rfl

@[simp] theorem State.apply_iq (op : Op) (inp : Bytes) (s : State) : (s.apply op inp).iq = s.iq := by
  rw [State.apply_eq]; cases (op inp s.eng s.rng).1 <;> rfl

@[simp] theorem State.apply_iovf (op : Op) (inp : Bytes) (s : State) : (s.apply op inp).iovf = s.iovf := by
  rw [State.apply_eq]; cases (op inp s.eng s.rng).1 <;> rfl

@[simp] theorem State.apply_host (op : Op) (inp : Bytes) (s : State) : (s.apply op inp).host = s.host := by
  rw [State.apply_eq]; cases (op inp s.eng s.rng).1 <;> rfl

@[simp] theorem State.apply_rng (op : Op) (inp : Bytes) (s : State) :
    (s.apply op inp).rng = (op inp s.eng s.rng).2 := by
  rw [State.apply_eq]; cases (op inp s.eng s.rng).1 <;> rfl

/-- What a command's end can do to the state: success writes the engine and the output, a failure raises and touches
nothing else, a retry leaves the command in progress (R71, R288). -/
theorem State.apply_cases (op : Op) (inp : Bytes) (s : State) :
    (∃ eng out, (op inp s.eng s.rng).1 = .ok eng out ∧
      s.apply op inp = { s with rng := (op inp s.eng s.rng).2, eng := eng, oq := out, result := .ok }) ∨
    (∃ f, (op inp s.eng s.rng).1 = .fail f ∧
      s.apply op inp = { s with rng := (op inp s.eng s.rng).2, result := f.code, rngerr := f.rngerr s.rngerr }) ∨
    (∃ x, (op inp s.eng s.rng).1 = .retry x ∧
      s.apply op inp = { s with rng := (op inp s.eng s.rng).2, busy := some x }) := by
  rw [State.apply_eq]
  cases (op inp s.eng s.rng).1 with
  | ok eng out => exact .inl ⟨eng, out, rfl, rfl⟩
  | fail f => exact .inr (.inl ⟨f, rfl, rfl⟩)
  | retry x => exact .inr (.inr ⟨x, rfl, rfl⟩)

/-- Everything `exec` can do: the three system commands, an input overflow, or a data command's outcome. -/
theorem exec_cases (i : Instr) (s t : State) (h : exec i s = .next t) :
    (i = .sysNop ∧ t = s) ∨ (i = .sysSrst ∧ t = s.resetCore) ∨
    (i = .sysFlush ∧ t = { s.takeInput with result := .ok }) ∨
    (i.isData = true ∧ s.iovf = true ∧ t = s.takeInput.raise .inputOverflow) ∨
    (s.iovf = false ∧ ∃ op, dataOp i = some op ∧ t = s.takeInput.apply op s.iq) := by
  cases hd : dataOp i with
  | none =>
    cases i <;> simp only [dataOp, reduceCtorEq] at hd
    · rw [exec_sysNop] at h; cases h; exact .inl ⟨rfl, rfl⟩
    · rw [exec_sysSrst] at h; cases h; exact .inr (.inl ⟨rfl, rfl⟩)
    · rw [exec_sysFlush] at h; cases h; exact .inr (.inr (.inl ⟨rfl, rfl⟩))
  | some op =>
    rw [exec_of_dataOp i op hd] at h
    cases hv : s.iovf with
    | true =>
      rw [runCommand_of_iovf op s hv] at h
      cases h
      exact .inr (.inr (.inr (.inl ⟨isData_of_dataOp i op hd, rfl, rfl⟩)))
    | false =>
      rw [runCommand_of_not_iovf op s hv] at h
      cases h
      exact .inr (.inr (.inr (.inr ⟨rfl, op, rfl, rfl⟩)))

/-- A data command whose semantic function answers `r` with the random source at `g` (R71). -/
theorem exec_of_answer (i : Instr) (op : Op) (hop : dataOp i = some op) (s : State) (hv : s.iovf = false) (r : OpResult)
    (g : Rng) (h : op s.iq s.eng s.rng = (r, g)) :
    exec i s = .next (State.finish r { s with iq := [], oq := [], iovf := false, rng := g }) := by
  rw [exec_of_dataOp _ _ hop, runCommand_of_not_iovf _ _ hv, State.apply_eq]
  simp only [State.takeInput_eng, State.takeInput_rng, h]
  rfl

/-- The answer of the random source to an RngBytes(16) draw when the environment lists one (R87, R292). -/
theorem Rng.drawIv_cons (r : Rng) (a : RngAnswer (Vector Byte 16)) (rest : List (RngAnswer (Vector Byte 16)))
    (h : r.ivs = a :: rest) : r.drawIv = (a, { r with ivs := rest, draws := r.draws + 1 }) := by
  simp [Rng.drawIv, h]

/-- The answer of the random source to an RngScalar() draw when the environment lists one (R87, R293). -/
theorem Rng.drawScalar_cons (r : Rng) (a : RngAnswer Scalar) (rest : List (RngAnswer Scalar))
    (h : r.scalars = a :: rest) : r.drawScalar = (a, { r with scalars := rest, draws := r.draws + 1 }) := by
  simp [Rng.drawScalar, h]

@[simp] theorem Rng.drawIv_draws (r : Rng) : r.drawIv.2.draws = r.draws + 1 := by
  unfold Rng.drawIv; split <;> rfl

@[simp] theorem Rng.drawScalar_draws (r : Rng) : r.drawScalar.2.draws = r.draws + 1 := by
  unfold Rng.drawScalar; split <;> rfl

/-- What the semantic function of a data command can answer, said once for every command: on success which parts of
the engine it may have changed, that it keeps them well formed, and how long the output is; on failure a code of the
command's row of R283; a retry only in SM2.ENC, on the same checked input. -/
def OpSpec (i : Instr) (inp : Bytes) (eng : Engine) : OpResult → Prop
  | .ok eng' out =>
    (i ≠ .sm3Init → i ≠ .sm3Write → eng'.h = eng.h) ∧ (i ≠ .sm4Setkey → eng'.c = eng.c) ∧
    (eng.h.wf → eng'.h.wf) ∧ (eng.c.wf → eng'.c.wf) ∧ (eng.c.keyv = true → eng'.c.keyv = true) ∧
    out.length ≤ max 96 (inp.length + 33)
  | .fail f => f.code ∈ i.errorCodes ∧ (f.code ≠ .rng → ∀ old, f.rngerr old = old)
  | .retry x => i = .sm2Enc ∧ x = inp ∧ 64 ≤ inp.length ∧ onCurve (encQx inp) (encQy inp) = true

theorem opSpec_keep (i : Instr) (inp : Bytes) (eng : Engine) (out : Bytes)
    (h : out.length ≤ max 96 (inp.length + 33)) : OpSpec i inp eng (.ok eng out) :=
  ⟨fun _ _ => rfl, fun _ => rfl, id, id, id, h⟩

theorem Failure.rngerr_of_code_ne (f : Failure) (h : f.code ≠ .rng) (old : Word) : f.rngerr old = old := by
  cases f <;> first | rfl | exact absurd rfl h

theorem opSpec_fail (i : Instr) (inp : Bytes) (eng : Engine) (f : Failure) (h : f.code ∈ i.errorCodes) :
    OpSpec i inp eng (.fail f) :=
  ⟨h, f.rngerr_of_code_ne⟩

theorem opSpec_unpadResult (i : Instr) (inp : Bytes) (eng : Engine) (q : Bytes)
    (hf : ResultCode.badPadding ∈ i.errorCodes) (hq : q.length ≤ inp.length) :
    OpSpec i inp eng (unpadResult eng q) := by
  rcases unpadResult_cases eng q with h | ⟨p, hp, h⟩ <;> rw [h]
  · exact opSpec_fail _ _ _ _ hf
  · have := unpad_length_le q p hp
    exact opSpec_keep _ _ _ _ (by omega)

/-- Every data command meets its specification. -/
theorem op_spec (i : Instr) (op : Op) (h : dataOp i = some op) (inp : Bytes) (eng : Engine) (rng : Rng) :
    OpSpec i inp eng (op inp eng rng).1 := by
  cases i <;> simp only [dataOp, Option.some.injEq, reduceCtorEq] at h <;> subst h
  case sm3Init => exact ⟨fun h => absurd rfl h, fun _ => rfl, fun _ => HashCtx.new_wf, id, id, by simp⟩
  case sm3Write => exact ⟨fun _ h => absurd rfl h, fun _ => rfl, HashCtx.update_wf _ _, id, id, by simp⟩
  case sm3Sum => exact opSpec_keep _ _ _ _ (by simp)
  case sm3Hash => exact opSpec_keep _ _ _ _ (by simp [sm3])
  case sm4Setkey =>
    simp only [opSm4Setkey]
    split
    · exact opSpec_fail _ _ _ _ (by simp [Failure.code, Instr.errorCodes])
    · exact ⟨fun _ _ => rfl, fun h => absurd rfl h, id, fun _ _ => by simp, fun _ => rfl, by simp⟩
  case sm4Enc =>
    simp only [opSm4Enc]
    repeat' split
    · exact opSpec_fail _ _ _ _ (by simp [Failure.code, Instr.errorCodes])
    · exact opSpec_fail _ _ _ _ (by simp [Failure.code, Instr.errorCodes])
    · exact opSpec_keep _ _ _ _ (by simp)
  case sm4Dec =>
    simp only [opSm4Dec]
    repeat' split
    · exact opSpec_fail _ _ _ _ (by simp [Failure.code, Instr.errorCodes])
    · exact opSpec_fail _ _ _ _ (by simp [Failure.code, Instr.errorCodes])
    · exact opSpec_keep _ _ _ _ (by simp)
  case sm4EcbEnc =>
    simp only [opSm4EcbEnc]
    split
    · exact opSpec_fail _ _ _ _ (by simp [Failure.code, Instr.errorCodes])
    · exact opSpec_keep _ _ _ _ (by simp; omega)
  case sm4EcbDec =>
    simp only [opSm4EcbDec]
    repeat' split
    · exact opSpec_fail _ _ _ _ (by simp [Failure.code, Instr.errorCodes])
    · exact opSpec_fail _ _ _ _ (by simp [Failure.code, Instr.errorCodes])
    · exact opSpec_unpadResult _ _ _ _ (by simp [Instr.errorCodes]) (by simp; omega)
  case sm4CbcEnc =>
    simp only [opSm4CbcEnc]
    split
    · exact opSpec_fail _ _ _ _ (by simp [Failure.code, Instr.errorCodes])
    · cases rng.drawIv.1 with
      | fail code => exact opSpec_fail _ _ _ _ (by simp [Failure.code, Instr.errorCodes])
      | ok iv => exact opSpec_keep _ _ _ _ (by simp; omega)
  case sm4CbcDec =>
    simp only [opSm4CbcDec]
    repeat' split
    · exact opSpec_fail _ _ _ _ (by simp [Failure.code, Instr.errorCodes])
    · exact opSpec_fail _ _ _ _ (by simp [Failure.code, Instr.errorCodes])
    · exact opSpec_fail _ _ _ _ (by simp [Failure.code, Instr.errorCodes])
    · refine opSpec_unpadResult _ _ _ _ (by simp [Instr.errorCodes]) ?_
      refine (cbcDecBlocks_length_le _ _ _).trans ?_
      simp; omega
  case sm2Keygen =>
    simp only [opSm2Keygen]
    cases rng.drawScalar.1 with
    | fail code => exact opSpec_fail _ _ _ _ (by simp [Failure.code, Instr.errorCodes])
    | ok d => exact opSpec_keep _ _ _ _ (by simp)
  case sm2Enc =>
    simp only [opSm2Enc]
    split
    · exact opSpec_fail _ _ _ _ (by simp [Failure.code, Instr.errorCodes])
    · next hlen =>
      split
      · exact opSpec_fail _ _ _ _ (by simp [Failure.code, Instr.errorCodes])
      · next hcurve =>
        rcases encResult_cases eng inp rng.drawScalar.1 with ⟨code, -, h⟩ | ⟨k, -, -, h⟩ | ⟨k, out, -, ho, h⟩ <;>
          simp only [h]
        · exact opSpec_fail _ _ _ _ (by simp [Failure.code, Instr.errorCodes])
        · exact ⟨rfl, rfl, by omega, by simpa using hcurve⟩
        · have hl := encryptWith_length _ _ _ _ ho
          simp only [encPlain, List.length_drop] at hl
          exact opSpec_keep _ _ _ _ (by omega)
  case sm2Dec =>
    simp only [opSm2Dec]
    repeat' split
    · exact opSpec_fail _ _ _ _ (by simp [Failure.code, Instr.errorCodes])
    · exact opSpec_fail _ _ _ _ (by simp [Failure.code, Instr.errorCodes])
    · exact opSpec_fail _ _ _ _ (by simp [Failure.code, Instr.errorCodes])
    · generalize scalarMul (decScalar inp) _ = q
      rcases decResult_cases eng (decCipher inp) q with ⟨-, h⟩ | ⟨-, h⟩ <;> rw [h]
      · exact opSpec_fail _ _ _ _ (by simp [Failure.code, Instr.errorCodes])
      · rcases decryptWith_cases eng q (decCipher inp) with h | h
        · rw [h]
          exact opSpec_fail _ _ _ _ (by simp [Failure.code, Instr.errorCodes])
        · rw [h.2]
          have hl : (ctC2 (decCipher inp)).length ≤ inp.length := by simp [ctC2, decCipher]
          refine opSpec_keep _ _ _ _ ?_
          rw [xorBytes_length]
          exact (Nat.min_le_left _ _).trans (hl.trans (by omega))

/-- A command that uses no random source leaves it alone (R294). -/
theorem op_rng (i : Instr) (op : Op) (h : dataOp i = some op) (hu : i.usesRng = false) (inp : Bytes) (eng : Engine)
    (rng : Rng) : (op inp eng rng).2 = rng := by
  cases i <;> simp only [Instr.usesRng, reduceCtorEq] at hu <;>
    simp only [dataOp, Option.some.injEq, reduceCtorEq] at h <;> subst h <;> rfl

/-- A result with another engine state. -/
def OpResult.withEng (eng : Engine) : OpResult → OpResult
  | .ok _ out => .ok eng out
  | .fail f => .fail f
  | .retry inp => .retry inp

/-- SM3.HASH and the commands of PE answer the same whatever the engine state, which they hand on (R114, R32). -/
theorem op_withEng (i : Instr) (op : Op) (h : dataOp i = some op)
    (hi : i ∈ [Instr.sm3Hash, .sm2Keygen, .sm2Enc, .sm2Dec]) (inp : Bytes) (eng eng' : Engine) (rng : Rng) :
    op inp eng' rng = (OpResult.withEng eng' (op inp eng rng).1, (op inp eng rng).2) := by
  simp only [List.mem_cons, List.not_mem_nil, or_false] at hi
  rcases hi with rfl | rfl | rfl | rfl <;> simp only [dataOp, Option.some.injEq] at h <;> subst h
  · rfl
  · simp only [opSm2Keygen]
    cases rng.drawScalar.1 <;> rfl
  · simp only [opSm2Enc]
    split
    · rfl
    · split
      · rfl
      · cases rng.drawScalar.1 with
        | fail code => rfl
        | ok k =>
          simp only [encResult]
          cases encryptWith (.affine (encQx inp) (encQy inp)) (encPlain inp) k.val <;> rfl
  · simp only [opSm2Dec]
    split
    · rfl
    · split
      · rfl
      · split
        · rfl
        · generalize scalarMul (decScalar inp) _ = q
          cases q with
          | inf => rfl
          | affine x y =>
            simp only [decResult, decryptWith]
            split <;> rfl

end Sys2Proof.Machine
end

