-- ==== Sys2Proof/Laws/PerInstr.lean ====
section
/-!
SUPPORT. The per-instruction family RoundTrip: the word of a command decodes to the command, is well formed, and is
the word of the opcode table (30_encoding.md R72).
-/

/-- The command's word decodes to it and passes the checks of WellFormed. -/
def Sys2Proof.Laws.RoundTrip.Statement (i : Sys2Proof.Instr) : Prop :=
  Sys2Proof.decode (Sys2Proof.encode i) = .ok i ∧ Sys2Proof.wellFormedWord (Sys2Proof.encode i) = true

namespace Sys2Proof.Laws.RoundTrip

theorem sysNop : Statement .sysNop := ⟨rfl, rfl⟩
theorem sysSrst : Statement .sysSrst := ⟨rfl, rfl⟩
theorem sysFlush : Statement .sysFlush := ⟨rfl, rfl⟩
theorem sm3Init : Statement .sm3Init := ⟨rfl, rfl⟩
theorem sm3Write : Statement .sm3Write := ⟨rfl, rfl⟩
theorem sm3Sum : Statement .sm3Sum := ⟨rfl, rfl⟩
theorem sm3Hash : Statement .sm3Hash := ⟨rfl, rfl⟩
theorem sm4Setkey : Statement .sm4Setkey := ⟨rfl, rfl⟩
theorem sm4Enc : Statement .sm4Enc := ⟨rfl, rfl⟩
theorem sm4Dec : Statement .sm4Dec := ⟨rfl, rfl⟩
theorem sm4EcbEnc : Statement .sm4EcbEnc := ⟨rfl, rfl⟩
theorem sm4EcbDec : Statement .sm4EcbDec := ⟨rfl, rfl⟩
theorem sm4CbcEnc : Statement .sm4CbcEnc := ⟨rfl, rfl⟩
theorem sm4CbcDec : Statement .sm4CbcDec := ⟨rfl, rfl⟩
theorem sm2Keygen : Statement .sm2Keygen := ⟨rfl, rfl⟩
theorem sm2Enc : Statement .sm2Enc := ⟨rfl, rfl⟩
theorem sm2Dec : Statement .sm2Dec := ⟨rfl, rfl⟩

end Sys2Proof.Laws.RoundTrip
end

