-- ==== Sys2Proof/Laws/Step.lean ====
section
/-!
SUPPORT. What a step does, one equation per kind of event.
-/

namespace Sys2Proof.Machine

/-- A reset is handled at once (R300, R304). -/
theorem step_reset (s : State) (rest : List HostAction) (h : s.host.agenda = .reset :: rest) :
    step s = .next (s.withAgenda rest).resetCore := by simp [step, h]

/-- A command in progress makes its next pass before the host's next access (R63, R312). -/
theorem step_busy (s : State) (inp : Bytes) (hb : s.busy = some inp) (h : ∀ rest, s.host.agenda ≠ .reset :: rest) :
    step s = .next (retryPass inp s) := by
  cases ha : s.host.agenda with
  | nil => simp [step, ha, hb]
  | cons a rest =>
    cases a with
    | reset => exact absurd ha (h rest)
    | write r v => simp [step, ha, hb]
    | read r => simp [step, ha, hb]

/-- A later pass of SM2.ENC's loop on a command in progress that is well formed: one draw, and the end of the command or
one more retry (R233, log 6). -/
theorem retryPass_eq (inp : Bytes) (s : State) (hw : s.BusyWf inp) :
    retryPass inp s =
      State.finish (encResult s.eng inp s.rng.drawScalar.1) { s with busy := none, rng := s.rng.drawScalar.2 } := by
  rw [retryPass, State.apply_eq, opSm2Enc_of_valid inp _ _ hw.long hw.valid]

/-- A host write (R51). -/
theorem step_write (s : State) (r : HostReg) (v : Word) (rest : List HostAction) (hb : s.busy = none)
    (h : s.host.agenda = .write r v :: rest) : step s = hostWrite r v (s.withAgenda rest) := by simp [step, h, hb]

/-- A host read (R52). -/
theorem step_read (s : State) (r : HostReg) (rest : List HostAction) (hb : s.busy = none)
    (h : s.host.agenda = .read r :: rest) : step s = .next ((s.withAgenda rest).hostRead r) := by simp [step, h, hb]

/-- An idle host (R303). -/
theorem step_idle (s : State) (hb : s.busy = none) (h : s.host.agenda = []) : step s = .next s := by
  simp [step, h, hb]

/-- The five kinds of step, each with its state. -/
theorem step_cases (s : State) :
    (∃ rest, s.host.agenda = .reset :: rest ∧ step s = .next (s.withAgenda rest).resetCore) ∨
    (∃ inp, s.busy = some inp ∧ step s = .next (retryPass inp s)) ∨
    (∃ r v rest, s.busy = none ∧ s.host.agenda = .write r v :: rest ∧ step s = hostWrite r v (s.withAgenda rest)) ∨
    (∃ r rest, s.busy = none ∧ s.host.agenda = .read r :: rest ∧ step s = .next ((s.withAgenda rest).hostRead r)) ∨
    (s.busy = none ∧ s.host.agenda = [] ∧ step s = .next s) := by
  by_cases hr : ∃ rest, s.host.agenda = .reset :: rest
  · obtain ⟨rest, h⟩ := hr
    exact .inl ⟨rest, h, step_reset s rest h⟩
  · cases hb : s.busy with
    | some inp => exact .inr (.inl ⟨inp, rfl, step_busy s inp hb fun rest h => hr ⟨rest, h⟩⟩)
    | none =>
      cases ha : s.host.agenda with
      | nil => exact .inr (.inr (.inr (.inr ⟨rfl, rfl, step_idle s hb ha⟩)))
      | cons a rest =>
        cases a with
        | write r v => exact .inr (.inr (.inl ⟨r, v, rest, rfl, rfl, step_write s r v rest hb ha⟩))
        | read r => exact .inr (.inr (.inr (.inl ⟨r, rest, rfl, rfl, step_read s r rest hb ha⟩)))
        | reset => exact absurd ⟨rest, ha⟩ hr

/-- What a write does: run a command, fail on an illegal word, push, or nothing (R51, R71). -/
theorem hostWrite_cases (r : HostReg) (v : Word) (s : State) :
    (∃ i, r = .cmd ∧ decode v = .ok i ∧ hostWrite r v s = exec i s) ∨
    (∃ e, r = .cmd ∧ decode v = .error e ∧ hostWrite r v s = .next (s.takeInput.raise .illegalCmd)) ∨
    (r = .din ∧ hostWrite r v s = .next (s.push (v.extractLsb' 0 8))) ∨
    (r ≠ .cmd ∧ r ≠ .din ∧ hostWrite r v s = .next s) := by
  cases r
  case cmd =>
    cases hd : decode v with
    | ok i => exact .inl ⟨i, rfl, rfl, by simp [hostWrite, execWord, hd]⟩
    | error e => exact .inr (.inl ⟨e, rfl, rfl, by simp [hostWrite, execWord, hd, runIllegal]⟩)
  case din => exact .inr (.inr (.inl ⟨rfl, rfl⟩))
  all_goals exact .inr (.inr (.inr ⟨by simp, by simp, rfl⟩))

end Sys2Proof.Machine
end

