-- ==== Sys2Proof/Tests/Slice0.lean ====
section
/-!
SUPPORT. The model's own tests. Expected words, digests and ciphertexts are those of spec/30_encoding.md R72 and
spec/95_test_vectors.md. The theorems `witness_…` show, for each statement of Certificates/Slice0/Obligations.lean
that has hypotheses, a state and operands that meet them.
-/

namespace Sys2Proof.Tests

open Sys2Proof Sys2Proof.Machine

-- one theorem after another: the kernel evaluations below would otherwise run all at once and take much memory
set_option Elab.async false

/-! ### Helpers -/

/-- The state after a step or a command; the reset state if there is none. -/
def after (r : Result) : State :=
  match r with
  | .next s => s
  | .fault _ => State.reset
  | .refused _ => State.reset

/-- A state with a given input queue. -/
def given (s : State) (b : Bytes) : State := { s with iq := b }

/-- The reset state with one listed answer to a scalar draw. -/
def drawing (a : RngAnswer Scalar) : State := State.reset.withAnswers [] [a]

/-- The key "1234567890abcdef" of 95_test_vectors.md section 4. -/
def keyBytes : Bytes := i2b 16 0x31323334353637383930616263646566

/-- The state after SM4.SETKEY with that key. -/
def keyed : State := { State.reset with eng := { State.reset.eng with c := Cipher.ofKey keyBytes } }

/-- The IV 00 01 … 0f. -/
def ivBytes : Vector Byte 16 := Vector.ofFn fun i => BitVec.ofNat 8 i.val

/-- The keyed state with that IV as the next answer. -/
def keyedIv : State := keyed.withAnswers [.ok ivBytes] []

/-- "hello world" -/
def helloWorld : Bytes := i2b 11 0x68656c6c6f20776f726c64

/-- The base point as an encoded public key. -/
def gBytes : Bytes := i2b32 curveGX ++ i2b32 curveGY

def one : Scalar := ⟨1, by decide, by decide⟩

/-- With the public key G the first keystream byte of the draw 351 is zero. -/
def zeroDraw : Scalar := ⟨351, by decide, by decide⟩

/-- The public key of 95_test_vectors.md section 6. -/
def keyQ : Bytes :=
  i2b32 0x09f9df311e5421a150dd7d161e4bc5c672179fad1833fc076bb08ff356f35020 ++
  i2b32 0xccea490ce26775a52dc6ea718cc1aa600aed05fbf35e084a6632f6072da9ad13

/-- "encryption standard" -/
def plainM : Bytes := i2b 19 0x656e6372797074696f6e207374616e64617264

/-- The ciphertext of E6: the plaintext "hi" for the private key 1. -/
def cipherE6 : Bytes :=
  [0x04#8] ++ i2b32 0x04ebfc718e8d1798620432268e77feb6415e2ede0e073c0f4f640ecd2e149a73 ++
  i2b32 0xe858f9d81e5430a57b36daab8f950a3c64e6ee6a63094d99283aff767e124df0 ++
  i2b32 0x48f9b463642ac8c6679de6e7be2cb09a02b4b4ed7420b448fe9c1a5c8f8b4bae ++ i2b 2 0x32c0

/-! ### WellFormed: each check refuses an ill-formed word, and the decoder rejects it by name -/

theorem test_reserved_bits_refused :
    reservedZero 0x00000100#32 = false ∧ wellFormedWord 0x80000010#32 = false ∧
    decode 0x00000100#32 = .error .reservedBits ∧ decode 0x80000010#32 = .error .reservedBits ∧
    decode 0xFFFFFF00#32 = .error .reservedBits := by decide

theorem test_undefined_opcode_refused :
    opcodeDefined 0x00000003#32 = false ∧ wellFormedWord 0x0000000F#32 = false ∧
    decode 0x00000003#32 = .error .undefinedOpcode ∧ decode 0x0000000F#32 = .error .undefinedOpcode ∧
    decode 0x00000014#32 = .error .undefinedOpcode ∧ decode 0x0000001F#32 = .error .undefinedOpcode ∧
    decode 0x00000027#32 = .error .undefinedOpcode ∧ decode 0x0000002F#32 = .error .undefinedOpcode ∧
    decode 0x00000033#32 = .error .undefinedOpcode ∧ decode 0x000000FF#32 = .error .undefinedOpcode := by decide

theorem test_every_command_well_formed :
    ∀ o : Byte, (decodeOpcode o).isSome = wellFormedWord (o.setWidth 32) := by decide

/-! ### Decode: the word of every constructor, written out from R72 -/

theorem test_decode_system :
    decode 0b00000000000000000000000000000000#32 = .ok .sysNop ∧
    decode 0b00000000000000000000000000000001#32 = .ok .sysSrst ∧
    decode 0b00000000000000000000000000000010#32 = .ok .sysFlush := by decide

theorem test_decode_hash :
    decode 0b00000000000000000000000000010000#32 = .ok .sm3Init ∧
    decode 0b00000000000000000000000000010001#32 = .ok .sm3Write ∧
    decode 0b00000000000000000000000000010010#32 = .ok .sm3Sum ∧
    decode 0b00000000000000000000000000010011#32 = .ok .sm3Hash := by decide

theorem test_decode_cipher :
    decode 0b00000000000000000000000000100000#32 = .ok .sm4Setkey ∧
    decode 0b00000000000000000000000000100001#32 = .ok .sm4Enc ∧
    decode 0b00000000000000000000000000100010#32 = .ok .sm4Dec ∧
    decode 0b00000000000000000000000000100011#32 = .ok .sm4EcbEnc ∧
    decode 0b00000000000000000000000000100100#32 = .ok .sm4EcbDec ∧
    decode 0b00000000000000000000000000100101#32 = .ok .sm4CbcEnc ∧
    decode 0b00000000000000000000000000100110#32 = .ok .sm4CbcDec := by decide

theorem test_decode_public_key :
    decode 0b00000000000000000000000000110000#32 = .ok .sm2Keygen ∧
    decode 0b00000000000000000000000000110001#32 = .ok .sm2Enc ∧
    decode 0b00000000000000000000000000110010#32 = .ok .sm2Dec := by decide

theorem test_decodeTableWord :
    decodeTableWord 32 0x25 = some .sm4CbcEnc ∧ decodeTableWord 32 0x40 = none ∧
    decodeTableWord 32 0x100000000 = some .sysNop ∧ decodeTableWord 8 0x31 = some .sm2Enc := by decide

theorem test_register_indices :
    ∀ i : BitVec 3, (HostReg.ofIndex i).index = i := by decide

/-- R85: `CMD SM3.HASH` is `W 0 00000013`. -/
theorem test_host_notation :
    (cmdActions .sm3Hash).map HostAction.code = [some (.w, 0#3, some 0x00000013#32)] ∧
    (pushActions [0xAB#8]).map HostAction.code = [some (.w, 5#3, some 0x000000AB#32)] ∧
    (popActions 1).map HostAction.code = [some (.r, 6#3, none)] := ⟨rfl, rfl, rfl⟩

/-! ### The port -/

/-- The next step after `withFetchWord` runs the command. -/
theorem test_step_runs_the_fetched_word :
    step (State.reset.withFetchWord 32 0x13) = exec .sm3Hash State.reset := rfl

theorem test_illegal_word_code :
    (after (step (State.reset.withFetchWord 32 0x03))).result = .illegalCmd := by decide

/-- 30_encoding.md R71: an illegal word is reported even when IOVF was set. -/
theorem test_illegal_word_before_overflow :
    (after (step ({ State.reset with iovf := true }.withFetchWord 32 0x40))).result = .illegalCmd := by decide

theorem test_read_dout_pops :
    (after (step ({ State.reset with oq := [0xAB#8, 0xCD#8] }.withProgram [.read .dout]))).host.rdata = 0xAB#32 ∧
    (after (step ({ State.reset with oq := [0xAB#8, 0xCD#8] }.withProgram [.read .dout]))).oq = [0xCD#8] := by decide

theorem test_read_dout_empty :
    (after (step (State.reset.withProgram [.read .dout]))).host.rdata = 0#32 := by decide

theorem test_read_status :
    (after (step ({ keyed with iovf := true }.withProgram [.read .status]))).host.rdata = 3#32 := by decide

/-- R9: the least capacity of the input queue. -/
theorem iqBytes_ge : 256 ≤ Config.iqBytes := Nat.le_add_left ..

/-- R44: bits 31:8 of the word are ignored. -/
theorem test_push_takes_the_low_byte :
    (after (step (State.reset.withProgram [.write .din 0xFFFFFF61#32]))).iq = [0x61#8] := by
  have h : (0 : Nat) < Config.iqBytes := Nat.lt_of_lt_of_le (by decide) iqBytes_ge
  show (State.push 0x61#8 (State.reset.withProgram [])).iq = [0x61#8]
  rw [State.push_of_lt (State.reset.withProgram []) _ h]
  rfl

/-! ### The system commands -/

theorem test_nop_keeps_result :
    (after (exec .sysNop { State.reset with result := .noKey, iovf := true })).result = .noKey := by decide

theorem test_nop_keeps_the_input : (after (exec .sysNop (given State.reset [0x61#8]))).iq = [0x61#8] := by decide

theorem test_srst_clears_the_key : (after (exec .sysSrst { keyed with iovf := true })).eng.c.keyv = false := by decide

theorem test_srst_empties_the_output : (after (exec .sysSrst { keyed with oq := [1#8] })).oq = [] := by decide

theorem test_flush_keeps_the_key : (after (exec .sysFlush { keyed with iovf := true })).eng.c.keyv = true := by decide

theorem test_flush_keeps_rngerr : (after (exec .sysFlush { State.reset with rngerr := 7 })).rngerr = 7 := by decide

/-! ### HE -/

/-- R109: the padding of 3 bytes and of 55 bytes. -/
theorem test_padding :
    hashPad 3 = [0x80#8] ++ List.replicate 52 0#8 ++ i2b 8 0x18 ∧ hashPad 55 = [0x80#8] ++ i2b 8 0x1b8 := by decide

/-- R101: some round constants. -/
theorem test_round_constants :
    tr 1 = 0xf3988a32#32 ∧ tr 15 = 0x228cbce6#32 ∧ tr 16 = 0x9d8a7a87#32 ∧ tr 32 = 0x7a879d8a#32 ∧
    tr 63 = 0x3d43cec5#32 := by decide

theorem test_init_discards_the_message :
    (after (exec .sm3Init { State.reset with eng := { State.reset.eng with h := HashCtx.new.update [1#8] } })).eng.h
      = HashCtx.new := by decide +kernel

/-- R112: SM3.WRITE of `616263` leaves FILL = 3 and LEN = 3. -/
theorem test_write_counts :
    (after (exec .sm3Write (given State.reset [0x61#8, 0x62#8, 0x63#8]))).eng.h.fill = 3 ∧
    (after (exec .sm3Write (given State.reset [0x61#8, 0x62#8, 0x63#8]))).eng.h.len = 3 := by decide +kernel

/-- R113: SM3.SUM after SM3.INIT is the digest of the empty message. -/
theorem test_sum_of_the_empty_message :
    (after (exec .sm3Sum State.reset)).oq
      = i2b32 0x1ab21d8355cfa17f8e61194831e81a8f22bec8c728fefb747ed035eb5082aa2b := by decide +kernel

/-- R114: the digest of "abc". -/
theorem test_hash_abc :
    (after (exec .sm3Hash (given State.reset [0x61#8, 0x62#8, 0x63#8]))).oq
      = i2b32 0x66c7f0f462eeedd9d1f2d46bdc10e4e24167c4875cf2f7a2297da02b8f4ba8e0 := by decide +kernel

/-- 95_test_vectors.md section 2: sixteen times "abcd", a message of one whole block. -/
theorem test_hash_whole_block :
    (after (exec .sm3Hash (given State.reset (List.replicate 16 (i2b 4 0x61626364)).flatten))).oq
      = i2b32 0xdebe9ff92275b8a138604889c18e5a4d6fdb70e5387e5765293dcba39c0c5732 := by decide +kernel

/-! ### CE -/

/-- R140: the table is a permutation: its 256 entries take every value. -/
theorem test_sbox_permutation :
    sboxRows.flatten.length = 256 ∧ (List.range 256).all (fun v => sboxRows.flatten.elem v) = true := by decide +kernel

/-- R140: the examples. -/
theorem test_sbox : sbox 0x00 = 0xd6 ∧ sbox 0x01 = 0x90 ∧ sbox 0x71 = 0x00 ∧ sbox 0xef = 0x84 ∧ sbox 0xff = 0x48 := by
  decide

/-- R145, R146: examples of the tables' entries. -/
theorem test_tables :
    tableTE 0x00 0 = 0x8ed55b5b#32 ∧ tableTE 0x01 1 = 0x42d09242#32 ∧ tableTE 0xff 3 = 0x49212168#32 ∧
    tableTK 0x00 1 = 0xc0d66b1a#32 ∧ tableTK 0xff 3 = 0x24090048#32 := by decide

/-- R148: the first and the last of the per-round constants. -/
theorem test_ck : sm4CK 0 = 0x00070e15#32 ∧ sm4CK 1 = 0x1c232a31#32 ∧ sm4CK 31 = 0x646b7279#32 := by decide

/-- R150: SM4.SETKEY's example, in both orders. -/
theorem test_setkey :
    (after (exec .sm4Setkey (given State.reset (i2b 16 0x0123456789abcdeffedcba9876543210)))).eng.c.rke[0]
      = 0xf12186f9#32 ∧
    (after (exec .sm4Setkey (given State.reset (i2b 16 0x0123456789abcdeffedcba9876543210)))).eng.c.rkd[0]
      = 0x9124a012#32 := by decide +kernel

theorem test_setkey_length : (after (exec .sm4Setkey (given keyed []))).result = .keyLength := by decide

/-- R152, R153: the example block. -/
theorem test_enc_dec :
    crypt (keyExpand (i2b 16 0x0123456789abcdeffedcba9876543210)) (i2b 16 0x0123456789abcdeffedcba9876543210)
      = i2b 16 0x681edf34d206965e86b3e94f536e4246 ∧
    crypt (keyExpand (i2b 16 0x0123456789abcdeffedcba9876543210)).reverse (i2b 16 0x681edf34d206965e86b3e94f536e4246)
      = i2b 16 0x0123456789abcdeffedcba9876543210 := by decide +kernel

/-- R286: SM4.ENC with 15 bytes and no key gives 0x06, not 0x03. -/
theorem test_enc_key_before_length : (after (exec .sm4Enc (given State.reset (i2b 15 0)))).result = .noKey := by decide

theorem test_dec_length : (after (exec .sm4Dec (given keyed (i2b 17 0)))).result = .blockLength := by decide

/-- R172: the source's scenario. -/
theorem test_ecb_enc :
    (after (exec .sm4EcbEnc (given keyed helloWorld))).oq = i2b 16 0x602c73d509f22047c742ded07a10bf08 := by
  decide +kernel

/-- 95_test_vectors.md section 4: the empty plaintext. -/
theorem test_ecb_enc_empty :
    (after (exec .sm4EcbEnc (given keyed []))).oq = i2b 16 0x113be48ad9d7d47ad067f3c730fd6bbd := by decide +kernel

theorem test_ecb_dec :
    (after (exec .sm4EcbDec (given keyed (i2b 16 0x602c73d509f22047c742ded07a10bf08)))).oq = helloWorld := by
  decide +kernel

/-- 95_test_vectors.md section 4: a last byte larger than the data, and a pad byte of zero. -/
theorem test_ecb_dec_pad :
    (after (exec .sm4EcbDec (given keyed (i2b 16 0x6931f3e3e7a8dda959ffceba005f40d3)))).result = .badPadding ∧
    (after (exec .sm4EcbDec (given keyed (i2b 16 0xab0aa22164bdfbf802ff9152bedaed3f)))).oq
      = i2b 16 0x000102030405060708090a0b0c0d0e00 := by decide +kernel

/-- R174: the example. -/
theorem test_cbc_enc :
    (after (exec .sm4CbcEnc (given keyedIv helloWorld))).oq
      = ivBytes.toList ++ i2b 16 0xb083cb3bb6f10690db4a2de63bbc6aa0 := by decide +kernel

/-- 95_test_vectors.md section 5: a second block, chained to the first. -/
theorem test_cbc_enc_two_blocks :
    (after (exec .sm4CbcEnc (given keyedIv (i2b 16 0x30313233343536373839616263646566)))).oq
      = ivBytes.toList ++ i2b 16 0xcccd8acef7a2006e8db267073fd6b1bc ++ i2b 16 0x12d94231474b265546c58005b4c9dbab := by
  decide +kernel

theorem test_cbc_dec :
    (after (exec .sm4CbcDec (given keyed
      (i2b 16 0x000102030405060708090a0b0c0d0e0f ++ i2b 16 0xb083cb3bb6f10690db4a2de63bbc6aa0)))).oq = helloWorld := by
  decide +kernel

theorem test_cbc_dec_lengths :
    (after (exec .sm4CbcDec (given keyed (i2b 15 0)))).result = .dataLength ∧
    (after (exec .sm4CbcDec (given keyed (i2b 24 0)))).result = .dataLength ∧
    (after (exec .sm4CbcDec (given keyed (i2b 16 0)))).result = .badPadding := by decide

/-! ### PE -/

/-- R201 to R204: the examples. -/
theorem test_field :
    fadd (curveP - 1) (curveP - 1) = curveP - 2 ∧ fsub 0 1 = curveP - 1 ∧ fmul (curveP - 1) (curveP - 1) = 1 ∧
    fneg 0 = 0 ∧ finv 2 = 0x7fffffff7fffffffffffffffffffffffffffffff800000008000000000000000 ∧
    finv (curveP - 1) = curveP - 1 := by decide +kernel

/-- R210: the examples. -/
theorem test_on_curve :
    onCurve curveGX curveGY = true ∧ onCurve curveGX (curveGY + 1) = false ∧ onCurve 0 0 = false := by decide +kernel

/-- R211: 2G. -/
theorem test_point_add :
    pointAdd baseG baseG =
      .affine 0x56cefd60d7c87c000d58ef57fa73ba4d9c0dfa08c08a7331495c2e1da3f2bd52
        0x31b7e7e6cc8189f668535ce0f8eaf1bd6de84c182f6c8e716f780d3a970a23c3 ∧
    pointAdd baseG (.affine curveGX (curveP - curveGY)) = .inf := by decide +kernel

/-- R230: the example. -/
theorem test_kdf :
    kdf [0x61#8, 0x62#8, 0x63#8] 33
      = i2b32 0xfe1ea80dac6f100c33537bd24619ec7c72a1e8b1ffeaefb1eb52a37791fdaf61 ++ [0x9d#8] := by decide +kernel

/-- 95_test_vectors.md section 6, K2. -/
theorem test_keygen : (after (exec .sm2Keygen (drawing (.ok one)))).oq = i2b32 1 ++ gBytes := by decide +kernel

/-- 95_test_vectors.md section 6, K4. -/
theorem test_keygen_failed_draw :
    (after (exec .sm2Keygen (given (drawing (.fail 7)) [1#8]))).result = .rng ∧
    (after (exec .sm2Keygen (given (drawing (.fail 7)) [1#8]))).rngerr = 7 := by decide

/-- 95_test_vectors.md section 6, E4. -/
theorem test_sm2_enc :
    (after (exec .sm2Enc (given (drawing (.ok one)) (keyQ ++ plainM)))).oq
      = [0x04#8] ++ gBytes ++ i2b32 0x2fa79e670a4f73b055b52de29581248d5085d79904d39d897add52666f1e686d ++
        i2b 19 0x89dbf226b72b6a6eefb087cd22eb865995b23e := by decide +kernel

/-- 95_test_vectors.md section 6, E7: 63 bytes, and 64 zero bytes. -/
theorem test_sm2_enc_errors :
    (after (exec .sm2Enc (given (drawing (.ok one)) (i2b 63 0)))).result = .invalidKey ∧
    (after (exec .sm2Enc (given (drawing (.ok one)) (i2b 64 0)))).rng = (drawing (.ok one)).rng := by decide +kernel

/-- 95_test_vectors.md section 6, D4. -/
theorem test_sm2_dec :
    (after (exec .sm2Dec (given State.reset (i2b32 1 ++ cipherE6)))).oq = [0x68#8, 0x69#8] := by decide +kernel

/-- The errors of SM2.DEC that need no hash: too short, marker, curve, scalar 0 (R234). -/
theorem test_sm2_dec_errors :
    (after (exec .sm2Dec (given State.reset (i2b 128 0)))).result = .truncatedInput ∧
    (after (exec .sm2Dec (given State.reset (i2b 129 0)))).result = .invalidPoint ∧
    (after (exec .sm2Dec (given State.reset (i2b32 1 ++ [4#8] ++ i2b 96 0)))).result = .invalidPoint ∧
    (after (exec .sm2Dec (given State.reset (i2b32 0 ++ [4#8] ++ gBytes ++ i2b 32 0)))).result = .invalidKey := by
  decide +kernel

/-! ### Witnesses of the statements' hypotheses, in the order of the statements -/

theorem witness_EncodedCommandDecodesToItself : Instr.sm2Dec.wellFormed = true := rfl

theorem witness_DecodedWordIsTheCommandsOnlyWord : decode 0x00000032#32 = .ok .sm2Dec := by decide

theorem witness_IllegalWordFailsAndChangesNothingElse :
    decode 0x00000033#32 = .error .undefinedOpcode ∧ decode 0xFFFFFFFF#32 = .error .reservedBits ∧
    State.reset.busy = none ∧
    (State.reset.withProgram [.write .cmd 0x00000033#32]).host.agenda = [.write .cmd 0x00000033#32] := by decide

theorem witness_StepRunsTheDecodedCommand :
    (State.reset.withProgram [.write .cmd 0x00000013#32]).busy = none ∧
    (State.reset.withProgram [.write .cmd 0x00000013#32]).host.agenda = [.write .cmd 0x00000013#32] ∧
    decode 0x00000013#32 = .ok .sm3Hash := by decide

/-- Each clause: room for one byte more, no room, a read-only register, a command and an illegal word, and the reads
of the two write-only registers. -/
theorem witness_WritesOfOtherRegistersPushOrDoNothing :
    State.reset.busy = none ∧
    (State.reset.withProgram [.write .din 0x61#32]).host.agenda = [.write .din 0x61#32] ∧
    (given State.reset (List.replicate (Config.iqBytes - 1) 0#8)).iq.length < Config.iqBytes ∧
    Config.iqBytes ≤ (given State.reset (List.replicate Config.iqBytes 0#8)).iq.length ∧
    (State.reset.withProgram [.write .rngerr 1#32]).host.agenda = [.write .rngerr 1#32] ∧
    HostReg.rngerr ∈ [HostReg.result, .status, .ilen, .olen, .dout, .rngerr] ∧
    (State.reset.withProgram [.write .cmd 0x13#32]).host.agenda = [.write .cmd 0x13#32] ∧
    decode 0x13#32 = .ok .sm3Hash ∧ decode 0x33#32 = .error .undefinedOpcode ∧
    (State.reset.withProgram [.read .din]).host.agenda = [.read .din] ∧
    HostReg.cmd ∈ [HostReg.cmd, .din] ∧ HostReg.din ∈ [HostReg.cmd, .din] := by
  refine ⟨rfl, rfl, ?_, ?_, rfl, by decide, rfl, by decide, by decide, rfl, by decide, by decide⟩
  · have h := iqBytes_ge
    simp only [given, List.length_replicate]
    omega
  · simp [given]

theorem witness_ReadReturnsTheRegister :
    ({ keyed with oq := [1#8] }.withProgram [.read .dout]).busy = none ∧
    ({ keyed with oq := [1#8] }.withProgram [.read .dout]).host.agenda = [.read .dout] := by decide

/-- As many bytes as fit. -/
theorem witness_PushedBytesJoinTheInputInOrder :
    (State.reset.withProgram (pushActions (List.replicate Config.iqBytes 0#8) ++ [])).busy = none ∧
    (State.reset.withProgram (pushActions (List.replicate Config.iqBytes 0#8) ++ [])).host.agenda
      = pushActions (List.replicate Config.iqBytes 0#8) ++ [] ∧
    (State.reset.withProgram (pushActions (List.replicate Config.iqBytes 0#8) ++ [])).iq.length
      + (List.replicate Config.iqBytes 0#8).length ≤ Config.iqBytes := by
  refine ⟨rfl, rfl, ?_⟩
  simp [State.reset]

/-- A reset in the middle of a retry loop. -/
theorem witness_HardwareResetGivesTheResetValues :
    ({ State.reset with busy := some gBytes }.withProgram [.reset]).host.agenda = [.reset] := rfl

theorem witness_InputOverflowFailsDataCommands :
    Instr.sm3Init ≠ .sysNop ∧ Instr.sm3Init ≠ .sysSrst ∧ Instr.sm3Init ≠ .sysFlush ∧
    { State.reset with iovf := true }.iovf = true := by decide

/-- An input of SM2.ENC that passes its checks: the public key G and one byte. -/
theorem sm2_input_valid :
    64 ≤ (gBytes ++ [1#8]).length ∧ (gBytes ++ [1#8]).length ≤ Config.iqBytes ∧
    onCurve (encQx (gBytes ++ [1#8])) (encQy (gBytes ++ [1#8])) = true := by
  have h : (gBytes ++ [1#8]).length = 65 := by simp [gBytes]
  have hq := iqBytes_ge
  exact ⟨by omega, by omega, by decide +kernel⟩

/-- A state in the middle of a retry loop. -/
def retrying : State := { drawing (.fail 7) with busy := some (gBytes ++ [1#8]) }

theorem retrying_wf : retrying.BusyWf (gBytes ++ [1#8]) :=
  ⟨sm2_input_valid.1, sm2_input_valid.2.1, sm2_input_valid.2.2, rfl, rfl, rfl⟩

/-- The retry's draw fails, and the host's next access is no reset: the step ends the command. -/
theorem retrying_step :
    retrying.busy = some (gBytes ++ [1#8]) ∧ (∀ rest, retrying.host.agenda ≠ .reset :: rest) ∧
    step retrying = .next (after (step retrying)) ∧ (after (step retrying)).busy = none ∧
    (after (step retrying)).result = .rng := by
  refine ⟨rfl, fun rest h => ?_, rfl, by decide +kernel, by decide +kernel⟩
  cases h

/-- One failure that draws and one that does not; and a retry whose draw fails. -/
theorem witness_FailingCommandChangesNothingElse :
    exec .sm4Enc State.reset = .next (after (exec .sm4Enc State.reset)) ∧
    (after (exec .sm4Enc State.reset)).result = .noKey ∧ (after (exec .sm4Enc State.reset)).busy = none ∧
    exec .sm2Keygen (drawing (.fail 7)) = .next (after (exec .sm2Keygen (drawing (.fail 7)))) ∧
    (after (exec .sm2Keygen (drawing (.fail 7)))).result = .rng ∧
    (after (exec .sm2Keygen (drawing (.fail 7)))).busy = none ∧
    retrying.busy = some (gBytes ++ [1#8]) ∧ retrying.BusyWf (gBytes ++ [1#8]) ∧
    (∀ rest, retrying.host.agenda ≠ .reset :: rest) ∧ step retrying = .next (after (step retrying)) ∧
    (after (step retrying)).busy = none ∧ (after (step retrying)).result ≠ .ok := by
  refine ⟨rfl, by decide, by decide, rfl, by decide, by decide, rfl, retrying_wf, retrying_step.2.1, rfl,
    retrying_step.2.2.2.1, ?_⟩
  rw [retrying_step.2.2.2.2]
  decide

theorem witness_CommandGivesOnlyItsOwnCodes :
    exec .sm4Setkey State.reset = .next (after (exec .sm4Setkey State.reset)) ∧ State.reset.busy = none ∧
    (after (exec .sm4Setkey State.reset)).busy = none ∧
    retrying.busy = some (gBytes ++ [1#8]) ∧ retrying.BusyWf (gBytes ++ [1#8]) ∧
    (∀ rest, retrying.host.agenda ≠ .reset :: rest) ∧ step retrying = .next (after (step retrying)) ∧
    (after (step retrying)).busy = none :=
  ⟨rfl, rfl, by decide, rfl, retrying_wf, retrying_step.2.1, rfl, retrying_step.2.2.2.1⟩

/-- Each of the three commands draws, and so does a retry. -/
theorem witness_DrawsOnlyAfterTheChecksOfThreeCommands :
    exec .sm2Keygen (drawing (.fail 7)) = .next (after (exec .sm2Keygen (drawing (.fail 7)))) ∧
    (after (exec .sm2Keygen (drawing (.fail 7)))).rng ≠ (drawing (.fail 7)).rng ∧
    (after (exec .sm2Enc (given (drawing (.fail 7)) gBytes))).rng ≠ (drawing (.fail 7)).rng ∧
    (after (exec .sm4CbcEnc (keyed.withAnswers [.fail 7] []))).rng ≠ (keyed.withAnswers [.fail 7] []).rng ∧
    retrying.busy = some (gBytes ++ [1#8]) ∧ retrying.BusyWf (gBytes ++ [1#8]) ∧
    (∀ rest, retrying.host.agenda ≠ .reset :: rest) ∧ step retrying = .next (after (step retrying)) :=
  ⟨rfl, by decide, by decide +kernel, by decide, rfl, retrying_wf, retrying_step.2.1, rfl⟩

/-- Each of the four clauses. -/
theorem witness_FailedDrawIsPassedOnVerbatim :
    (keyed.withAnswers [.fail 7] []).iovf = false ∧ (keyed.withAnswers [.fail 7] []).eng.c.keyv = true ∧
    (keyed.withAnswers [.fail 7] []).rng.drawIv.1 = .fail 7 ∧
    (drawing (.fail 7)).iovf = false ∧ (drawing (.fail 7)).rng.drawScalar.1 = .fail 7 ∧
    64 ≤ gBytes.length ∧ onCurve (encQx gBytes) (encQy gBytes) = true ∧
    retrying.busy = some (gBytes ++ [1#8]) ∧ retrying.BusyWf (gBytes ++ [1#8]) ∧
    (∀ rest, retrying.host.agenda ≠ .reset :: rest) ∧ retrying.rng.drawScalar.1 = .fail 7 :=
  ⟨rfl, rfl, rfl, rfl, rfl, by decide, by decide +kernel, rfl, retrying_wf, retrying_step.2.1, rfl⟩

theorem witness_OnlyThreeCommandsTouchTheHashContext :
    exec .sm3Write (given State.reset [1#8]) = .next (after (exec .sm3Write (given State.reset [1#8]))) ∧
    (after (exec .sm3Write (given State.reset [1#8]))).eng.h ≠ State.reset.eng.h := by
  refine ⟨rfl, by decide +kernel⟩

theorem witness_OnlyTwoCommandsTouchTheCipherInstance :
    exec .sm4Setkey (given State.reset keyBytes) = .next (after (exec .sm4Setkey (given State.reset keyBytes))) ∧
    (after (exec .sm4Setkey (given State.reset keyBytes))).eng.c ≠ State.reset.eng.c := by
  refine ⟨rfl, fun h => ?_⟩
  have hk := congrArg Cipher.keyv h
  revert hk
  decide

/-- Both ways to clear KEYV. -/
theorem witness_KeyValidFlagIsClearedOnlyByReset :
    keyed.eng.c.keyv = true ∧ step (keyed.withProgram [.reset]) = .next (after (step (keyed.withProgram [.reset]))) ∧
    (after (step (keyed.withProgram [.reset]))).eng.c.keyv = false ∧
    (after (step (keyed.withProgram [.write .cmd 1#32]))).eng.c.keyv = false := by
  refine ⟨rfl, rfl, rfl, by decide⟩

/-- A state in the middle of a retry loop meets the invariant and steps on. -/
theorem witness_EveryStepKeepsTheInvariant :
    retrying.Inv ∧ step retrying = .next (after (step retrying)) :=
  ⟨⟨Nat.zero_le _, Nat.zero_le _, rfl, fun h => absurd (show false = true from h) (by decide), fun inp h => by
    have e : gBytes ++ [1#8] = inp := Option.some.inj h
    rw [← e]
    exact retrying_wf⟩, rfl⟩

theorem witness_HashAndSm2ResultsIgnoreTheEngineState :
    Instr.sm2Keygen ∈ [Instr.sm3Hash, .sm2Keygen, .sm2Enc, .sm2Dec] ∧
    exec .sm2Keygen (drawing (.ok one)) = .next (after (exec .sm2Keygen (drawing (.ok one)))) ∧
    exec .sm2Keygen { drawing (.ok one) with eng := keyed.eng }
      = .next (after (exec .sm2Keygen { drawing (.ok one) with eng := keyed.eng })) :=
  ⟨by decide, rfl, rfl⟩

/-- The four commands of HE: only IOVF must be clear. -/
theorem witness_Sm3InitMakesAFreshContext : State.reset.iovf = false := rfl

theorem witness_Sm3WriteUpdatesTheContext : (given State.reset [1#8]).iovf = false := rfl

theorem witness_Sm3SumGivesTheDigestOfTheContext : State.reset.iovf = false := rfl

theorem witness_Sm3HashGivesTheDigestOfTheInput : (given State.reset [1#8]).iovf = false := rfl

theorem witness_MessageExpansionFollowsItsRecurrence : (List.replicate 64 0#8 : Bytes).length = 64 := by decide

theorem witness_CompressionFollowsItsRounds : (List.replicate 64 0#8 : Bytes).length = 64 := by decide

/-- Two chunks, written from the reset state. -/
def chunkStates (i : Nat) : State :=
  { State.reset with eng := { State.reset.eng with h := (([[1#8], [2#8]] : List Bytes).take i).foldl HashCtx.update HashCtx.new } }

theorem witness_ChunkingDoesNotMatter :
    (chunkStates 0).eng.h = HashCtx.new ∧ (chunkStates 0).iovf = false ∧
    (∀ (i : Nat) (hi : i < ([[1#8], [2#8]] : List Bytes).length),
      exec .sm3Write { chunkStates i with iq := ([[1#8], [2#8]] : List Bytes)[i] } = .next (chunkStates (i + 1))) := by
  refine ⟨rfl, rfl, fun i hi => ?_⟩
  match i, hi with
  | 0, _ => rfl
  | 1, _ => rfl

theorem witness_DigestIsDeterministicAnd32Bytes :
    State.reset.iovf = false ∧ keyed.iovf = false ∧ State.reset.iq = keyed.iq ∧ State.reset.eng.h = keyed.eng.h ∧
    Instr.sm3Sum ∈ [Instr.sm3Init, .sm3Write, .sm3Sum, .sm3Hash] :=
  ⟨rfl, rfl, rfl, rfl, by decide⟩

/-- Both clauses: one byte too few, one too many, sixteen. -/
theorem witness_SetkeyLoadsBothSchedules :
    State.reset.iovf = false ∧ (given State.reset (i2b 15 0)).iq.length ≠ 16 ∧
    (given State.reset (i2b 17 0)).iq.length ≠ 16 ∧ (given State.reset keyBytes).iq.length = 16 := by decide

theorem witness_KeyScheduleFollowsItsRecurrence : keyBytes.length = 16 := by decide

theorem witness_BlockTransformFollowsItsRecurrence : (keyExpand keyBytes).length = 32 ∧ (i2b 16 0).length = 16 :=
  ⟨keyExpand_length _, by decide⟩

theorem witness_ReversedRoundKeysInvertTheBlockTransform :
    (keyExpand keyBytes).length = 32 ∧ (i2b 16 0).length = 16 := ⟨keyExpand_length _, by decide⟩

theorem witness_LookupTablesComputeTheTransforms : (0 : Nat) < 4 ∧ (3 : Nat) < 4 := by decide

theorem witness_CipherCommandsNeedAKey :
    Instr.sm4CbcDec ∈ [Instr.sm4Enc, .sm4Dec, .sm4EcbEnc, .sm4EcbDec, .sm4CbcEnc, .sm4CbcDec] ∧
    State.reset.iovf = false ∧ State.reset.eng.c.keyv = false := by decide

/-- The three clauses: no key, one byte too few or too many, a block. -/
theorem witness_BlockCommandsTransformOneBlock :
    State.reset.iovf = false ∧ State.reset.eng.c.keyv = false ∧ keyed.iovf = false ∧ keyed.eng.c.keyv = true ∧
    (given keyed (i2b 15 0)).iq.length ≠ 16 ∧ (given keyed (i2b 17 0)).iq.length ≠ 16 ∧
    (given keyed (i2b 16 0)).iq.length = 16 := by decide

theorem witness_EcbEncryptCompletes :
    State.reset.iovf = false ∧ State.reset.eng.c.keyv = false ∧ (given keyed helloWorld).iovf = false ∧
    (given keyed helloWorld).eng.c.keyv = true := by decide

/-- The decrypted data of R173's statement, for the keyed state and an input. -/
def ecbData (c : Bytes) : Bytes :=
  (List.range (c.length / 16)).flatMap fun i => crypt keyed.eng.c.rkd.toList (slice c (16 * i) 16)

/-- The four clauses: no key; a length of 15; the empty ciphertext and a last byte that is too large; a plaintext. -/
theorem witness_EcbDecryptCompletes :
    State.reset.iovf = false ∧ State.reset.eng.c.keyv = false ∧ keyed.iovf = false ∧ keyed.eng.c.keyv = true ∧
    (given keyed (i2b 15 0)).iq.length % 16 ≠ 0 ∧ (given keyed []).iq.length % 16 = 0 ∧ unpad (ecbData []) = none ∧
    unpad (ecbData (i2b 16 0x6931f3e3e7a8dda959ffceba005f40d3)) = none ∧
    unpad (ecbData (i2b 16 0x602c73d509f22047c742ded07a10bf08)) = some helloWorld := by
  refine ⟨rfl, rfl, rfl, rfl, by decide, by decide, rfl, by decide +kernel, by decide +kernel⟩

/-- The three clauses: no key, a failed draw, an IV. -/
theorem witness_CbcEncryptCompletes :
    State.reset.iovf = false ∧ State.reset.eng.c.keyv = false ∧ keyedIv.iovf = false ∧ keyedIv.eng.c.keyv = true ∧
    keyedIv.rng.drawIv = (.ok ivBytes, keyedIv.rng.drawIv.2) ∧
    (keyed.withAnswers [.fail 7] []).rng.drawIv = (.fail 7, (keyed.withAnswers [.fail 7] []).rng.drawIv.2) :=
  ⟨rfl, rfl, rfl, rfl, rfl, rfl⟩

/-- The decrypted data of R175's statement, for the keyed state and an input. -/
def cbcData (c : Bytes) : Bytes :=
  (List.range (c.length / 16 - 1)).flatMap fun i =>
    xorBytes (crypt keyed.eng.c.rkd.toList (slice c (16 * (i + 1)) 16)) (slice c (16 * i) 16)

/-- The four clauses: no key; lengths 15 and 17; an IV alone; a plaintext. -/
theorem witness_CbcDecryptCompletes :
    State.reset.iovf = false ∧ State.reset.eng.c.keyv = false ∧ keyed.iovf = false ∧ keyed.eng.c.keyv = true ∧
    (given keyed (i2b 15 0)).iq.length < 16 ∧ (given keyed (i2b 17 0)).iq.length % 16 ≠ 0 ∧
    16 ≤ (given keyed (i2b 16 0)).iq.length ∧ (given keyed (i2b 16 0)).iq.length % 16 = 0 ∧
    unpad (cbcData (i2b 16 0)) = none ∧
    unpad (cbcData (ivBytes.toList ++ i2b 16 0xb083cb3bb6f10690db4a2de63bbc6aa0)) = some helloWorld := by
  refine ⟨rfl, rfl, rfl, rfl, by decide, by decide, by decide, by decide, rfl, by decide +kernel⟩

theorem witness_ModesRoundTrip :
    (State.reset.withAnswers [.ok ivBytes] []).iovf = false ∧ keyBytes.length = 16 ∧
    (after (exec .sm4Setkey (given (State.reset.withAnswers [.ok ivBytes] []) keyBytes))).rng.drawIv.1
      = .ok ivBytes := ⟨rfl, by decide, rfl⟩

theorem witness_FieldFunctionsAreReduced : 0 < curveP ∧ curveP - 1 < curveP ∧ 1 ≠ 0 ∧ curveP - 1 ≠ 0 := by decide

/-- The clauses with a premise: a coordinate that can be negated, a sum that is zero, one that is not, two different
x coordinates. -/
theorem witness_InfinityIsNeutralAndNegativesCancel :
    0 < curveP ∧ curveP - 1 < curveP ∧ fadd 1 (curveP - 1) = 0 ∧ fadd 0 0 = 0 ∧ fadd 1 1 ≠ 0 ∧ 0 ≠ curveP - 1 := by
  decide

theorem witness_ScalarMulDoublesAndAdds : 0 < 2 ^ 255 ∧ 2 ^ 255 - 1 < 2 ^ 255 := by decide

theorem witness_KdfConcatenatesCounterHashes : 0 < 1 ∧ 32 < 33 := by decide

/-- Both clauses: a failed draw, a scalar. -/
theorem witness_KeygenGivesTheScalarAndItsPoint :
    (drawing (.fail 7)).iovf = false ∧
    (drawing (.fail 7)).rng.drawScalar = (.fail 7, (drawing (.fail 7)).rng.drawScalar.2) ∧
    (drawing (.ok one)).rng.drawScalar = (.ok one, (drawing (.ok one)).rng.drawScalar.2) :=
  ⟨rfl, rfl, rfl⟩

/-- The three clauses: 63 bytes, a pair off the curve, and G with no plaintext. -/
theorem witness_Sm2EncryptCompletes :
    (drawing (.ok one)).iovf = false ∧ (given (drawing (.ok one)) (i2b 63 0)).iq.length < 64 ∧
    64 ≤ (given (drawing (.ok one)) (i2b 64 0)).iq.length ∧
    onCurve (b2i ((i2b 64 0).take 32)) (b2i (((i2b 64 0).drop 32).take 32)) = false ∧
    64 ≤ (given (drawing (.ok one)) gBytes).iq.length ∧
    onCurve (b2i (gBytes.take 32)) (b2i ((gBytes.drop 32).take 32)) = true ∧
    (given (drawing (.ok one)) gBytes).rng.drawScalar
      = (.ok one, (given (drawing (.ok one)) gBytes).rng.drawScalar.2) ∧
    ∀ sh : Point, allZero (kdf (i2b32 sh.x ++ i2b32 sh.y) (gBytes.drop 64).length) = false := by
  refine ⟨rfl, by decide, by decide, by decide +kernel, by decide, by decide +kernel, rfl, fun sh => rfl⟩

/-- The reset state with two listed scalars, an input and SM2.ENC to run. -/
def retryStart : State :=
  given ((State.reset.withAnswers [] [.ok zeroDraw, .ok one]).withProgram [.write .cmd 0x00000031#32]) (gBytes ++ [1#8])

theorem witness_Sm2EncryptRetriesUntilANonzeroKeystream :
    retryStart.busy = none ∧ retryStart.iovf = false ∧ retryStart.host.agenda = .write .cmd 0x00000031#32 :: [] ∧
    (∀ r, ([] : List HostAction) ≠ .reset :: r) ∧ 64 ≤ retryStart.iq.length ∧
    onCurve (encQx retryStart.iq) (encQy retryStart.iq) = true ∧
    retryStart.rng.scalars = [zeroDraw].map .ok ++ .ok one :: [] ∧
    (∀ z ∈ [zeroDraw], allZero (keystream (scalarMul z.val (.affine (encQx retryStart.iq) (encQy retryStart.iq)))
      (encPlain retryStart.iq).length) = true) ∧
    allZero (keystream (scalarMul one.val (.affine (encQx retryStart.iq) (encQy retryStart.iq)))
      (encPlain retryStart.iq).length) = false := by
  refine ⟨rfl, rfl, rfl, by simp, sm2_input_valid.1, sm2_input_valid.2.2, rfl, by decide +kernel,
    by decide +kernel⟩

theorem witness_Sm2DecryptChecksInOrder : (given State.reset (i2b 129 0)).iovf = false := rfl

/-- The public key G, the private key 1 and the draw 1, at the command's start and in the middle of its loop. -/
theorem witness_Sm2DecryptUndoesEncrypt :
    (given (drawing (.ok one)) (gBytes ++ [1#8])).iovf = false ∧
    (given (drawing (.ok one)) (gBytes ++ [1#8])).iq = gBytes ++ [1#8] ∧
    { drawing (.ok one) with busy := some (gBytes ++ [1#8]) }.busy = some (gBytes ++ [1#8]) ∧
    State.BusyWf { drawing (.ok one) with busy := some (gBytes ++ [1#8]) } (gBytes ++ [1#8]) ∧
    (∀ rest, { drawing (.ok one) with busy := some (gBytes ++ [1#8]) }.host.agenda ≠ .reset :: rest) ∧
    64 ≤ (gBytes ++ [1#8]).length ∧ onCurve (encQx (gBytes ++ [1#8])) (encQy (gBytes ++ [1#8])) = true ∧
    (drawing (.ok one)).rng.drawScalar = (.ok one, (drawing (.ok one)).rng.drawScalar.2) ∧
    allZero (keystream (scalarMul one.val (.affine (encQx (gBytes ++ [1#8])) (encQy (gBytes ++ [1#8]))))
      (encPlain (gBytes ++ [1#8])).length) = false ∧
    1 < 2 ^ 256 ∧ scalarMul one.val baseG = .affine curveGX curveGY ∧ onCurve curveGX curveGY = true ∧
    scalarMul 1 (.affine curveGX curveGY)
      = scalarMul one.val (.affine (encQx (gBytes ++ [1#8])) (encQy (gBytes ++ [1#8]))) ∧
    scalarMul one.val (.affine (encQx (gBytes ++ [1#8])) (encQy (gBytes ++ [1#8]))) ≠ .inf := by
  refine ⟨rfl, rfl, rfl, ⟨sm2_input_valid.1, sm2_input_valid.2.1, sm2_input_valid.2.2, rfl, rfl, rfl⟩, fun rest h => ?_,
    sm2_input_valid.1, sm2_input_valid.2.2, rfl, by decide +kernel, by norm_num, by decide +kernel,
    by decide +kernel, by decide +kernel, by decide +kernel⟩
  cases h

/-- A context with an empty buffer, one whose buffer lacks one byte, and one that keeps FILL = LEN mod 64. -/
theorem witness_ContextsAbsorbUpdateAndFinalize :
    HashCtx.new.fill.val < 63 ∧ (HashCtx.new.update (List.replicate 63 0#8)).fill.val = 63 ∧
    (HashCtx.new.update (List.replicate 62 0#8)).fill.val < 63 ∧
    (HashCtx.new.update (List.replicate 63 0#8)).wf := by
  refine ⟨by decide, ?_, ?_, HashCtx.update_wf _ _ HashCtx.new_wf⟩ <;>
    rw [HashCtx.update_fill, HashCtx.absorb_fill, List.length_replicate] <;> decide

end Sys2Proof.Tests
end

/-!
PROOF. What each access of the register port does, register by register (10_state.md R38, R44; 20_memory.md R51,
R52), and the statement about writes and about reads of write-only registers (O6).
-/

namespace Sys2Proof.Machine

/-- A word that decodes runs its command (R71). -/
theorem execWord_of_ok (v : Word) (i : Instr) (s : State) (hd : decode v = .ok i) : execWord v s = exec i s := by
  simp only [execWord, hd]

/-- An illegal word empties the queues, clears IOVF and gives E_ILLEGAL_CMD (R71, R73). -/
theorem execWord_of_error (v : Word) (e : IllegalWord) (s : State) (hd : decode v = .error e) :
    execWord v s = .next { s with iq := [], oq := [], iovf := false, result := .illegalCmd } := by
  simp only [execWord, hd]
  rfl

/-- A write of CMD executes its word (R39, R51). -/
theorem hostWrite_cmd (v : Word) (s : State) : hostWrite .cmd v s = execWord v s := rfl

/-- A write of DIN pushes the word's low byte (R44, R51). -/
theorem hostWrite_din (v : Word) (s : State) : hostWrite .din v s = .next (s.push (v.setWidth 8)) := by
  rw [BitVec.setWidth_eq_extractLsb' (by decide)]
  rfl

/-- A write to a read-only register is ignored (R38, R51). -/
theorem hostWrite_readOnly (r : HostReg) (v : Word) (s : State)
    (hr : r ∈ [HostReg.result, .status, .ilen, .olen, .dout, .rngerr]) : hostWrite r v s = .next s := by
  cases r
  case cmd | din => simp at hr
  all_goals rfl

/-- A read of a write-only register returns 0 and leaves the core as it is (R38, R52). -/
theorem State.hostRead_writeOnly (s : State) (r : HostReg) (hr : r ∈ [HostReg.cmd, .din]) :
    s.hostRead r = { s with host := { s.host with rdata := 0 } } := by
  cases r
  case cmd | din => rfl
  all_goals simp at hr

/-- Settles O6: the step is the write or the read of the next access (`step_write`, `step_read`), and each clause is
the rule of its register. -/
theorem writesOfOtherRegistersPushOrDoNothing : Obligations.WritesOfOtherRegistersPushOrDoNothing := by
  unfold Obligations.WritesOfOtherRegistersPushOrDoNothing
  refine ⟨rfl, fun s r v rest hb => ⟨fun ha => ?_, fun ha hr => ?_⟩⟩
  · rw [step_write s r v rest hb ha]
    refine ⟨?_, ?_, fun hr => hostWrite_readOnly r v _ hr, ?_⟩
    · rintro rfl hroom
      rw [hostWrite_din, State.push_of_lt (s.withAgenda rest) _ hroom]
      rfl
    · rintro rfl hfull
      rw [hostWrite_din, State.push_of_not_lt (s.withAgenda rest) _ (Nat.not_lt.mpr hfull)]
      rfl
    · rintro rfl
      rw [hostWrite_cmd]
      cases hd : decode v with
      | ok i => exact execWord_of_ok v i _ hd
      | error e => exact execWord_of_error v e _ hd
  · rw [step_read s r rest hb ha, State.hostRead_writeOnly _ r hr]
    rfl

end Sys2Proof.Machine

/-!
PROOF. What a read of each register returns and what it removes (10_state.md R40, R41, R45; 20_memory.md R52), and the
statement about every read (O7).
-/

namespace Sys2Proof.Machine

/-- A read of RESULT returns the code's byte as a number (R40). -/
theorem State.readValue_result (s : State) : s.readValue .result = BitVec.ofNat 32 s.result.byte.toNat :=
  (BitVec.ofNat_toNat 32 s.result.byte).symm

/-- A read of STATUS returns KEYV with weight 1 and IOVF with weight 2 (R41). -/
theorem State.readValue_status (s : State) :
    s.readValue .status = BitVec.ofNat 32 (s.eng.c.keyv.toNat + 2 * s.iovf.toNat) :=
  s.statusWord_eq

/-- A read of DOUT returns the head of the output queue as a number, and 0 when the queue is empty (R45). -/
theorem State.readValue_dout (s : State) :
    s.readValue .dout = BitVec.ofNat 32 (match s.oq with | [] => 0 | b :: _ => b.toNat) := by
  rw [State.readValue, State.doutWord, ← BitVec.ofNat_toNat]
  cases s.oq with
  | nil => rfl
  | cons b bs => rfl

/-- A read gives the host its value, and only the read of DOUT changes the core: it drops the head of the output queue
(R45, R52). -/
theorem State.hostRead_eq (s : State) (r : HostReg) :
    s.hostRead r =
      { s with
        oq := if r = .dout then s.oq.drop 1 else s.oq
        host := { s.host with rdata := s.readValue r } } := by
  cases r
  case dout => simp [State.hostRead, State.pop]
  all_goals rfl

/-- Settles O7: the step is the read of the next access (`step_read`), its effect is that of `State.hostRead_eq`, and
the value is the rule of its register. -/
theorem readReturnsTheRegister : Obligations.ReadReturnsTheRegister := by
  unfold Obligations.ReadReturnsTheRegister
  intro s r rest hb ha
  rw [step_read s r rest hb ha, State.hostRead_eq]
  cases r
  case result => rw [State.readValue_result]; rfl
  case status => rw [State.readValue_status]; rfl
  case dout => rw [State.readValue_dout]; rfl
  case cmd | ilen | olen | din | rngerr => rfl

end Sys2Proof.Machine

/-!
PROOF. Which words are illegal, read from the two fields of a command word (30_encoding.md R70, R72, R73), and the
statement about illegal words (O4).
-/

namespace Sys2Proof.Machine

/-- RSV is zero exactly when the word, read as a number, has no part at or above 256 (R70). -/
theorem rsvField_eq_zero_iff (w : Word) : rsvField w = 0#24 ↔ w.toNat / 256 = 0 := by
  have hval : (rsvField w).toNat = w.toNat / 256 := by
    simp only [rsvField, BitVec.extractLsb'_toNat, Nat.shiftRight_eq_div_pow]
    omega
  rw [← BitVec.toNat_inj, hval, BitVec.toNat_zero]

/-- OPC is the word's low byte (R70). -/
theorem opcField_toNat (w : Word) : (opcField w).toNat = w.toNat % 256 :=
  BitVec.extractLsb'_toNat 0 8 w

/-- The opcodes without a command are those outside the seventeen rows of the opcode map (R72): each row gives a
command, and an opcode that meets no row differs from all of them. -/
theorem decodeOpcode_eq_none_iff (o : Byte) :
    decodeOpcode o = none ↔
      o.toNat ∉ [0x00, 0x01, 0x02, 0x10, 0x11, 0x12, 0x13, 0x20, 0x21, 0x22, 0x23, 0x24, 0x25, 0x26, 0x30, 0x31,
        0x32] := by
  unfold decodeOpcode
  split
  case h_18 => simp_all
  all_goals rename_i hrow; simp [hrow]

/-- A word is illegal exactly when RSV is not zero or OPC has no command (R73). -/
theorem decode_error_iff (w : Word) :
    (∃ e, decode w = .error e) ↔ rsvField w ≠ 0#24 ∨ decodeOpcode (opcField w) = none := by
  unfold decode
  split
  · rename_i hrsv
    cases decodeOpcode (opcField w) <;> simp [hrsv]
  · rename_i hrsv
    simp [hrsv]

/-- Settles O4: the two fields of the word say whether it is illegal (`decode_error_iff`), and the step on an illegal
word is the failing command of `execWord_of_error`. -/
theorem illegalWordFailsAndChangesNothingElse : Obligations.IllegalWordFailsAndChangesNothingElse := by
  unfold Obligations.IllegalWordFailsAndChangesNothingElse
  refine fun w => ⟨?_, fun e s rest hd hb ha => ?_⟩
  · rw [decode_error_iff, Ne, rsvField_eq_zero_iff, decodeOpcode_eq_none_iff, opcField_toNat]
  · rw [step_write s .cmd w rest hb ha, hostWrite_cmd, execWord_of_error w e _ hd]
    rfl

end Sys2Proof.Machine

/-!
PROOF. The commands of HE (40_sm3_hash.md R111 to R114): each completes with the whole next state said (O27 to O30),
and from these equations the statement that HE is deterministic (O35).
-/

namespace Sys2Proof.Machine

/-- A data command whose semantic function succeeds, with IOVF clear: the input is gone, the engine and the output are
written, RESULT is OK (R71). -/
theorem exec_of_ok (i : Instr) (op : Op) (hop : dataOp i = some op) (s : State) (hv : s.iovf = false) (eng : Engine)
    (out : Bytes) (h : op s.iq s.eng s.rng = (.ok eng out, s.rng)) :
    exec i s = .next { s with eng := eng, iq := [], oq := out, iovf := false, result := .ok } :=
  exec_of_answer i op hop s hv (.ok eng out) s.rng h

/-- Settles O27: SM3.INIT's answer, a fresh context, in the wrapper. -/
theorem sm3InitMakesAFreshContext : Obligations.Sm3InitMakesAFreshContext :=
  fun s hv => exec_of_ok .sm3Init opSm3Init rfl s hv _ _ rfl

/-- Settles O28: SM3.WRITE's answer, the updated context, in the wrapper. -/
theorem sm3WriteUpdatesTheContext : Obligations.Sm3WriteUpdatesTheContext :=
  fun s hv => exec_of_ok .sm3Write opSm3Write rfl s hv _ _ rfl

/-- Settles O29: SM3.SUM's answer, the digest of the context, in the wrapper. -/
theorem sm3SumGivesTheDigestOfTheContext : Obligations.Sm3SumGivesTheDigestOfTheContext :=
  fun s hv => exec_of_ok .sm3Sum opSm3Sum rfl s hv _ _ rfl

/-- Settles O30: SM3.HASH's answer, the digest of the input, in the wrapper. -/
theorem sm3HashGivesTheDigestOfTheInput : Obligations.Sm3HashGivesTheDigestOfTheInput :=
  fun s hv => exec_of_ok .sm3Hash opSm3Hash rfl s hv _ _ rfl

@[simp] theorem sm3_length (m : Bytes) : (sm3 m).length = 32 := HashCtx.finalize_length _

/-- Settles O35: the next states of the four commands (O27 to O30) name only the input and the hash context. -/
theorem digestIsDeterministicAnd32Bytes : Obligations.DigestIsDeterministicAnd32Bytes := by
  unfold Obligations.DigestIsDeterministicAnd32Bytes
  intro s s' hv hv' hiq
  refine ⟨⟨_, _, sm3HashGivesTheDigestOfTheInput s hv, sm3HashGivesTheDigestOfTheInput s' hv', ?_, ?_⟩, ?_⟩
  · simp only [hiq]
  · simp
  · intro hh i hi
    simp only [List.mem_cons, List.not_mem_nil, or_false] at hi
    rcases hi with rfl | rfl | rfl | rfl
    · exact ⟨_, _, sm3InitMakesAFreshContext s hv, sm3InitMakesAFreshContext s' hv', rfl, rfl, rfl⟩
    · exact ⟨_, _, sm3WriteUpdatesTheContext s hv, sm3WriteUpdatesTheContext s' hv', rfl, by simp only [hh, hiq], rfl⟩
    · exact ⟨_, _, sm3SumGivesTheDigestOfTheContext s hv, sm3SumGivesTheDigestOfTheContext s' hv',
        by simp only [hh], hh, rfl⟩
    · exact ⟨_, _, sm3HashGivesTheDigestOfTheInput s hv, sm3HashGivesTheDigestOfTheInput s' hv',
        by simp only [hiq], hh, rfl⟩

end Sys2Proof.Machine

/-!
PROOF. The padding (40_sm3_hash.md R109) and the hash contexts (R110, R115), and the statements about them (O33, O60).
-/

namespace Sys2Proof.Machine

/-- The zero bytes bring the length to 56 modulo 64 (R109). -/
theorem add_padZeros_mod (len : BitVec 64) : (len.toNat + 1 + padZeros len) % 64 = 56 := by
  unfold padZeros
  omega

/-- The number of zero bytes is below a block. -/
theorem padZeros_le (len : BitVec 64) : padZeros len ≤ 63 := by
  unfold padZeros
  omega

/-- Message and padding fill whole blocks (R109). -/
theorem add_hashPad_length_mod (len : BitVec 64) : (len.toNat + (hashPad len).length) % 64 = 0 := by
  have hk := add_padZeros_mod len
  rw [hashPad_length]
  omega

/-- The padding with the bit length written as a number (R109). -/
theorem hashPad_eq (len : BitVec 64) :
    hashPad len = [0x80#8] ++ List.replicate (padZeros len) 0#8 ++ be64 (BitVec.ofNat 64 (8 * len.toNat)) := by
  rw [hashPad, BitVec.ofNat_mul, BitVec.ofNat_toNat, BitVec.setWidth_eq]

/-- Settles O33: the k of `hashPad_eq` is below 64, so it is the least of its residue class. -/
theorem paddingFillsWholeBlocks : Obligations.PaddingFillsWholeBlocks := by
  unfold Obligations.PaddingFillsWholeBlocks
  intro len
  have hk := add_padZeros_mod len
  have hle := padZeros_le len
  exact ⟨padZeros len, hashPad_eq len, hk, hle, fun k' hk' => by omega, add_hashPad_length_mod len⟩

/-- Below the last place of the buffer, a byte is stored at FILL and FILL moves on (R110). -/
theorem HashCtx.absorbByte_of_lt (ctx : HashCtx) (b : Byte) (h : ctx.fill.val + 1 < 64) :
    ctx.absorbByte b = { ctx with buf := ctx.buf.set ctx.fill.val b, fill := ⟨ctx.fill.val + 1, h⟩ } :=
  dif_pos h

/-- The byte at the last place completes a block, which is compressed, and FILL returns to 0 (R110). -/
theorem HashCtx.absorbByte_of_full (ctx : HashCtx) (b : Byte) (h : ctx.fill.val = 63) :
    ctx.absorbByte b =
      { ctx with
        v := cf ctx.v (ctx.buf.set ctx.fill.val b).toList
        buf := ctx.buf.set ctx.fill.val b
        fill := 0 } :=
  dif_neg (by omega)

/-- A full list with its last byte replaced is the list before it followed by the byte. -/
theorem set_last_eq (l : Bytes) (n : Nat) (b : Byte) (h : l.length = n + 1) : l.set n b = l.take n ++ [b] := by
  rw [List.set_eq_take_append_cons_drop, if_pos (by omega), List.drop_eq_nil_of_le (by omega)]

/-- The block that is compressed: the 63 bytes of the buffer below the last place, and the new byte (R110). -/
theorem HashCtx.absorbByte_v_of_full (ctx : HashCtx) (b : Byte) (h : ctx.fill.val = 63) :
    (ctx.absorbByte b).v = cf ctx.v (ctx.buf.toList.take 63 ++ [b]) := by
  rw [HashCtx.absorbByte_of_full ctx b h, ← set_last_eq ctx.buf.toList 63 b (by simp)]
  simp only [Vector.toList_set, h]

/-- Adding a number to LEN, with the sum taken over the numbers (R110). -/
theorem HashCtx.update_eq (ctx : HashCtx) (s : Bytes) :
    ctx.update s = { ctx.absorb s with len := BitVec.ofNat 64 (ctx.len.toNat + s.length) } := by
  rw [HashCtx.update, BitVec.ofNat_add, BitVec.ofNat_toNat, BitVec.setWidth_eq]

/-- Finalizing a context whose FILL agrees with LEN ends on a block boundary (R115). -/
theorem HashCtx.absorb_hashPad_fill (ctx : HashCtx) (h : ctx.wf) : (ctx.absorb (hashPad ctx.len)).fill.val = 0 := by
  have hlen := add_hashPad_length_mod ctx.len
  unfold HashCtx.wf at h
  rw [HashCtx.absorb_fill, h]
  omega

/-- The digest: the words of V after the padding, each big-endian (R75, R115). -/
theorem HashCtx.finalize_eq (ctx : HashCtx) :
    ctx.finalize = (ctx.absorb (hashPad ctx.len)).v.toList.flatMap fun w =>
      [w.extractLsb' 24 8, w.extractLsb' 16 8, w.extractLsb' 8 8, w.extractLsb' 0 8] := by
  rw [HashCtx.finalize, digestBytes, funext wordBytes_eq]

/-- Settles O60: one byte by the two cases of FILL (`absorbByte_of_lt`, `absorbByte_v_of_full`), then update, padding
and finalize by their equations. -/
theorem contextsAbsorbUpdateAndFinalize : Obligations.ContextsAbsorbUpdateAndFinalize := by
  unfold Obligations.ContextsAbsorbUpdateAndFinalize
  refine ⟨rfl, fun m => rfl, fun ctx => ⟨rfl, fun b s => rfl, fun b => ⟨ctx.absorbByte_len b, fun hlt => ?_,
    fun hfull => ?_⟩, ctx.update_eq, ctx.absorb_hashPad_fill, ctx.finalize_eq⟩⟩
  · rw [HashCtx.absorb_cons, HashCtx.absorb_nil, HashCtx.absorbByte_of_lt ctx b (by omega)]
    refine ⟨rfl, rfl, Vector.getElem_set_self _, fun i hi => ?_⟩
    exact Vector.getElem_set_ne ctx.fill.isLt i.isLt (by omega)
  · refine ⟨ctx.absorbByte_v_of_full b hfull, ?_⟩
    simp [HashCtx.absorbByte_fill, hfull]

end Sys2Proof.Machine

/-!
PROOF. The message expansion word by word (40_sm3_hash.md R105, R106), and the statement about it (O31).
-/

namespace Sys2Proof.Machine

/-- Four bytes of a sequence, one by one (R11). -/
theorem slice_four (s : Bytes) (a : Nat) (h : a + 4 ≤ s.length) :
    slice s a 4 = [s.getD a 0, s.getD (a + 1) 0, s.getD (a + 2) 0, s.getD (a + 3) 0] := by
  rw [slice, List.drop_eq_getElem_cons (by omega), List.drop_eq_getElem_cons (by omega),
    List.drop_eq_getElem_cons (by omega), List.drop_eq_getElem_cons (by omega)]
  simp only [List.take_succ_cons, List.take_zero, List.getD_eq_getElem s 0 (show a < s.length by omega),
    List.getD_eq_getElem s 0 (show a + 1 < s.length by omega),
    List.getD_eq_getElem s 0 (show a + 2 < s.length by omega),
    List.getD_eq_getElem s 0 (show a + 3 < s.length by omega)]

@[simp] theorem blockWords_length (b : Bytes) : (blockWords b).length = 16 := by simp [blockWords]

/-- A word of the block, its bytes big-endian (R106). -/
theorem blockWords_getD (b : Bytes) (hb : b.length = 64) (i : Nat) (hi : i < 16) :
    (blockWords b).getD i 0 =
      b.getD (4 * i) 0 ++ b.getD (4 * i + 1) 0 ++ b.getD (4 * i + 2) 0 ++ b.getD (4 * i + 3) 0 := by
  rw [← bytesWord_four, ← slice_four b (4 * i) (by omega)]
  simp [blockWords, hi]

/-- The newest word of a longer expansion comes from the shorter one. -/
theorem expandWords_succ (n : Nat) (rev : List Word) :
    expandWords (n + 1) rev = nextWord (expandWords n rev) :: expandWords n rev := by
  induction n generalizing rev with
  | zero => rfl
  | succ n ih => rw [expandWords, ih, expandWords]

/-- A shorter expansion is the longer one without its newest words. -/
theorem expandWords_eq_drop (n k : Nat) (rev : List Word) :
    expandWords n rev = (expandWords (n + k) rev).drop k := by
  induction k with
  | zero => rfl
  | succ k ih => rw [← Nat.add_assoc, expandWords_succ, List.drop_succ_cons, ih]

@[simp] theorem expandWords_length (n : Nat) (rev : List Word) : (expandWords n rev).length = n + rev.length := by
  induction n with
  | zero => simp [expandWords]
  | succ n ih => rw [expandWords_succ, List.length_cons, ih]; omega

@[simp] theorem expansion_length (b : Bytes) : (expansion b).length = 68 := by simp [expansion]

@[simp] theorem expansion1_length (w : List Word) : (expansion1 w).length = w.length - 4 := by simp [expansion1]

/-- The expansion by n words is the first 16 + n words of the whole one, newest first. -/
theorem expandWords_eq_take (b : Bytes) (n : Nat) (hn : n ≤ 52) :
    expandWords n (blockWords b).reverse = ((expansion b).take (16 + n)).reverse := by
  have hd := expandWords_eq_drop n (52 - n) (blockWords b).reverse
  rw [Nat.add_sub_cancel' hn] at hd
  rw [hd, expansion, List.take_reverse, List.reverse_reverse]
  congr 1
  simp
  omega

/-- The expansion starts with the words of the block (R106). -/
theorem expansion_take (b : Bytes) : (expansion b).take 16 = blockWords b :=
  List.reverse_injective (expandWords_eq_take b 0 (by omega)).symm

/-- The word that follows a list of words, oldest first, with the rotations of P1 written out (R105, R106). -/
theorem nextWord_reverse (w : List Word) (h : 16 ≤ w.length) :
    ∃ u : Word,
      u = w.getD (w.length - 16) 0 ^^^ w.getD (w.length - 9) 0 ^^^ (w.getD (w.length - 3) 0).rotateLeft 15 ∧
      nextWord w.reverse = (u ^^^ u.rotateLeft 15 ^^^ u.rotateLeft 23) ^^^
        (w.getD (w.length - 13) 0).rotateLeft 7 ^^^ w.getD (w.length - 6) 0 := by
  have hw (k : Nat) (hk : 1 ≤ k) (hk' : k ≤ 16) : w.reverse.getD (k - 1) 0 = w.getD (w.length - k) 0 := by
    rw [List.getD_reverse _ (by omega)]
    congr 1
    omega
  refine ⟨_, rfl, ?_⟩
  simp only [nextWord, p1, hw 16 (by omega) (by omega), hw 9 (by omega) (by omega), hw 3 (by omega) (by omega),
    hw 13 (by omega) (by omega), hw 6 (by omega) (by omega), rol_eq_rotateLeft _ 15 (by omega),
    rol_eq_rotateLeft _ 23 (by omega), rol_eq_rotateLeft _ 7 (by omega)]

/-- A word of the expansion past the block is the next word of those before it (R106). -/
theorem expansion_getD_eq_nextWord (b : Bytes) (j : Nat) (hj : 16 ≤ j) (hj' : j < 68) :
    (expansion b).getD j 0 = nextWord ((expansion b).take j).reverse := by
  have hj0 := expandWords_eq_take b (j - 16) (by omega)
  have hj1 := expandWords_eq_take b (j - 16 + 1) (by omega)
  rw [← Nat.add_assoc, Nat.add_sub_cancel' hj] at hj1
  rw [Nat.add_sub_cancel' hj] at hj0
  rw [expandWords_succ, hj0, List.take_succ_eq_append_getElem (by simpa using hj'), List.reverse_append] at hj1
  rw [List.getD_eq_getElem _ _ (by simpa using hj')]
  exact (List.cons.inj hj1).1.symm

/-- The words W1 (R106). -/
theorem expansion1_getD (w : List Word) (j : Nat) (h : j + 4 < w.length) :
    (expansion1 w).getD j 0 = w.getD j 0 ^^^ w.getD (j + 4) 0 := by
  rw [List.getD_eq_getElem _ _ (by simp; omega), List.getD_eq_getElem _ _ (by omega), List.getD_eq_getElem _ _ h]
  simp [expansion1, Nat.add_comm]

/-- An entry of the first words of a list. -/
theorem getD_take_of_lt (w : List Word) (n i : Nat) (h : i < n) : (w.take n).getD i 0 = w.getD i 0 := by
  simp [h]

/-- Settles O31: the block's words by `expansion_take`, the later ones by `nextWord_reverse` on the words before. -/
theorem messageExpansionFollowsItsRecurrence : Obligations.MessageExpansionFollowsItsRecurrence := by
  unfold Obligations.MessageExpansionFollowsItsRecurrence
  intro b hb
  refine ⟨expansion_length b, by simp, fun i hi => ?_, fun j hj hj' => ?_,
    fun j hj => expansion1_getD _ _ (by simp; omega)⟩
  · rw [← blockWords_getD b hb i hi, ← expansion_take, getD_take_of_lt _ _ _ hi]
  · have hlen : ((expansion b).take j).length = j := by simp; omega
    obtain ⟨u, hu, hnext⟩ := nextWord_reverse ((expansion b).take j) (by omega)
    have hw (k : Nat) (hk : 1 ≤ k) : ((expansion b).take j).getD (j - k) 0 = (expansion b).getD (j - k) 0 :=
      getD_take_of_lt _ _ _ (by omega)
    simp only [hlen, hw _ (by omega : 1 ≤ 16), hw _ (by omega : 1 ≤ 9), hw _ (by omega : 1 ≤ 3)] at hu
    simp only [hlen, hw _ (by omega : 1 ≤ 13), hw _ (by omega : 1 ≤ 6)] at hnext
    exact ⟨u, hu, (expansion_getD_eq_nextWord b j hj hj').trans hnext⟩

end Sys2Proof.Machine

/-!
PROOF. The rounds of the compression function (40_sm3_hash.md R101 to R104, R107, R108), and the statement about it
(O32).
-/

namespace Sys2Proof.Machine

/-- The registers after the first n rounds (R108). -/
def hashRegsAfter (w w1 : List Word) (r : HashRegs) : Nat → HashRegs
  | 0 => r
  | n + 1 => hashRound n (w.getD n 0) (w1.getD n 0) (hashRegsAfter w w1 r n)

/-- The rounds 0 to n - 1 in order are n steps of `hashRegsAfter`. -/
theorem foldl_hashRound_range (w w1 : List Word) (r : HashRegs) (n : Nat) :
    (List.range n).foldl (fun r j => hashRound j (w.getD j 0) (w1.getD j 0) r) r = hashRegsAfter w w1 r n := by
  induction n with
  | zero => rfl
  | succ n ih => rw [List.range_succ, List.foldl_append, ih]; rfl

/-- The registers of a block are those after 64 rounds (R108). -/
theorem hashRounds_eq (w w1 : List Word) (r : HashRegs) : hashRounds w w1 r = hashRegsAfter w w1 r 64 :=
  foldl_hashRound_range w w1 r 64

/-- The round constant with its rotation as a bit-vector rotation (R101). -/
theorem tr_eq (j : Nat) : tr j = (if j ≤ 15 then 0x79cc4519#32 else 0x7a879d8a#32).rotateLeft (j % 32) := by
  rw [tr, rol_eq_rotateLeft _ _ (by omega), tBase]

/-- One round with its intermediate words named and the functions FF, GG and P0 written out (R102 to R104, R107). -/
theorem hashRound_eq (j : Nat) (w w1 : Word) (r : HashRegs) :
    ∃ ss1 ss2 tt1 tt2 : Word,
      ss1 = (r.a.rotateLeft 12 + r.e +
        (if j ≤ 15 then 0x79cc4519#32 else 0x7a879d8a#32).rotateLeft (j % 32)).rotateLeft 7 ∧
      ss2 = ss1 ^^^ r.a.rotateLeft 12 ∧
      tt1 = (if j ≤ 15 then r.a ^^^ r.b ^^^ r.c else (r.a &&& r.b) ||| (r.a &&& r.c) ||| (r.b &&& r.c)) +
        r.d + ss2 + w1 ∧
      tt2 = (if j ≤ 15 then r.e ^^^ r.f ^^^ r.g else (r.e &&& r.f) ||| (~~~r.e &&& r.g)) + r.h + ss1 + w ∧
      hashRound j w w1 r = HashRegs.mk tt1 r.a (r.b.rotateLeft 9) r.c
        (tt2 ^^^ tt2.rotateLeft 9 ^^^ tt2.rotateLeft 17) r.e (r.f.rotateLeft 19) r.g := by
  refine ⟨_, _, _, _, rfl, rfl, rfl, rfl, ?_⟩
  simp only [hashRound, tr_eq, ff, gg, p0, rol_eq_rotateLeft _ 12 (by omega), rol_eq_rotateLeft _ 7 (by omega),
    rol_eq_rotateLeft _ 9 (by omega), rol_eq_rotateLeft _ 17 (by omega), rol_eq_rotateLeft _ 19 (by omega)]

/-- Settles O32: the registers of `hashRegsAfter`, each round by `hashRound_eq`, and the feed-forward of `cf`. -/
theorem compressionFollowsItsRounds : Obligations.CompressionFollowsItsRounds := by
  unfold Obligations.CompressionFollowsItsRounds
  intro v blk _
  refine ⟨hashRegsAfter (expansion blk) (expansion1 (expansion blk)) (hashRegs v), rfl,
    fun j _ => hashRound_eq j _ _ _, ?_⟩
  simp only [cf, hashRounds_eq]

end Sys2Proof.Machine

/-!
PROOF. The two lookup tables and the transforms T and TKS (41_sm4_cipher.md R141 to R146), and the statement about
them (O40).
-/

namespace Sys2Proof.Machine

/-- Rotation goes through XOR, so the diffusions are linear (R12). -/
theorem rotateLeft_xor (a b : Word) (n : Nat) : (a ^^^ b).rotateLeft n = a.rotateLeft n ^^^ b.rotateLeft n := by
  ext i hi
  simp only [BitVec.getElem_xor, BitVec.getElem_rotateLeft]
  split <;> rfl

/-- L with its rotations as bit-vector rotations (R142). -/
theorem diffL_eq (b : Word) :
    diffL b = b ^^^ b.rotateLeft 2 ^^^ b.rotateLeft 10 ^^^ b.rotateLeft 18 ^^^ b.rotateLeft 24 := by
  rw [diffL, rol_eq_rotateLeft b 2 (by omega), rol_eq_rotateLeft b 10 (by omega), rol_eq_rotateLeft b 18 (by omega),
    rol_eq_rotateLeft b 24 (by omega)]

/-- LK with its rotations as bit-vector rotations (R143). -/
theorem diffLK_eq (b : Word) : diffLK b = b ^^^ b.rotateLeft 13 ^^^ b.rotateLeft 23 := by
  rw [diffLK, rol_eq_rotateLeft b 13 (by omega), rol_eq_rotateLeft b 23 (by omega)]

theorem diffL_xor (a b : Word) : diffL (a ^^^ b) = diffL a ^^^ diffL b := by
  simp only [diffL_eq, rotateLeft_xor]
  ac_rfl

theorem diffLK_xor (a b : Word) : diffLK (a ^^^ b) = diffLK a ^^^ diffLK b := by
  simp only [diffLK_eq, rotateLeft_xor]
  ac_rfl

/-- The substituted byte at its position, as a product (R145). -/
theorem sboxAt_eq_ofNat (a : Byte) (p : Nat) :
    sboxAt a p = BitVec.ofNat 32 ((sbox a).toNat * 2 ^ (24 - 8 * p)) := by
  apply BitVec.eq_of_toNat_eq
  simp [sboxAt, Nat.shiftLeft_eq]

/-- Four bytes side by side are the XOR of four words that hold one byte each: a bit comes from the byte in whose
place it lies, and past their eight bits the other bytes give zero. -/
theorem append_four_eq_xor (a b c d : Byte) :
    a ++ b ++ c ++ d =
      (a.setWidth 32 <<< 24) ^^^ (b.setWidth 32 <<< 16) ^^^ (c.setWidth 32 <<< 8) ^^^ (d.setWidth 32 <<< 0) := by
  have hout (a : Byte) (k : Nat) (hk : 8 ≤ k) : a.getLsbD k = false := BitVec.getLsbD_of_ge a k hk
  ext i hi
  simp only [← BitVec.getLsbD_eq_getElem]
  grind

/-- τ substitutes each of the word's bytes (R141): the bytes of the word are those it was put together from. -/
theorem tau_append (a b c d : Byte) : tau (a ++ b ++ c ++ d) = sbox a ++ sbox b ++ sbox c ++ sbox d := by
  have h : wordBytes (a ++ b ++ c ++ d) = [a, b, c, d] := by
    rw [← bytesWord_four, wordBytes_bytesWord _ rfl]
  simp only [wordBytes_eq, List.cons.injEq, and_true] at h
  obtain ⟨ha, hb, hc, hd⟩ := h
  rw [tau, ha, hb, hc, hd]

/-- τ of a word is the XOR of its substituted bytes, each at its position (R141, R145). -/
theorem tau_append_eq_xor (a b c d : Byte) :
    tau (a ++ b ++ c ++ d) = sboxAt a 0 ^^^ sboxAt b 1 ^^^ sboxAt c 2 ^^^ sboxAt d 3 :=
  (tau_append a b c d).trans (append_four_eq_xor _ _ _ _)

/-- Settles O40: the entries by `diffL_eq` and `diffLK_eq`; the transforms because both diffusions are linear and τ is
an XOR of one term per byte. -/
theorem lookupTablesComputeTheTransforms : Obligations.LookupTablesComputeTheTransforms := by
  unfold Obligations.LookupTablesComputeTheTransforms
  refine ⟨fun a p _ => ⟨sboxAt a p, sboxAt_eq_ofNat a p, diffL_eq _, diffLK_eq _⟩,
    fun a0 a1 a2 a3 => ⟨?_, ?_⟩⟩
  · simp only [sm4T, tau_append_eq_xor, diffL_xor, tableTE]
  · simp only [sm4TKS, tau_append_eq_xor, diffLK_xor, tableTK]

end Sys2Proof.Machine

/-!
PROOF. The key schedule and the block transform (41_sm4_cipher.md R147 to R151, R154), both a window of four words
that moves by one word a round, and the statements about them (O37, O38, O39).
-/

namespace Sys2Proof.Machine

/-- A sequence of windows in which each step moves the window by one word. -/
def Sliding (w : Nat → Quad) : Prop :=
  ∀ n, (w (n + 1)).x0 = (w n).x1 ∧ (w (n + 1)).x1 = (w n).x2 ∧ (w (n + 1)).x2 = (w n).x3

/-- Window n of a sliding sequence shows the words n to n + 3, where word i is the first one of window i. -/
theorem Sliding.eq_mk {w : Nat → Quad} (h : Sliding w) (n : Nat) :
    w n = ⟨(w n).x0, (w (n + 1)).x0, (w (n + 2)).x0, (w (n + 3)).x0⟩ := by
  rw [(h (n + 2)).1, (h (n + 1)).2.1, (h n).2.2, (h (n + 1)).1, (h n).2.1, (h n).1]

/-- The word that joins a sliding window is the first one four windows later. -/
theorem Sliding.x3_succ {w : Nat → Quad} (h : Sliding w) (n : Nat) : (w (n + 1)).x3 = (w (n + 4)).x0 := by
  rw [h.eq_mk (n + 1)]

theorem keyWindow_sliding (key : Bytes) : Sliding (keyWindow key) := fun _ => ⟨rfl, rfl, rfl⟩

/-- Word i of the key schedule (R149). -/
def keyWord (key : Bytes) (i : Nat) : Word := (keyWindow key i).x0

theorem keyWindow_eq (key : Bytes) (n : Nat) :
    keyWindow key n = ⟨keyWord key n, keyWord key (n + 1), keyWord key (n + 2), keyWord key (n + 3)⟩ :=
  (keyWindow_sliding key).eq_mk n

/-- The round keys are the words of the schedule after the seed (R149). -/
theorem roundKey_eq_keyWord (key : Bytes) (i : Nat) : roundKey key i = keyWord key (i + 4) :=
  (keyWindow_sliding key).x3_succ i

/-- The recurrence of the key schedule (R149). -/
theorem keyWord_add_four (key : Bytes) (i : Nat) :
    keyWord key (i + 4) = keyWord key i ^^^
      sm4TKS (keyWord key (i + 1) ^^^ keyWord key (i + 2) ^^^ keyWord key (i + 3) ^^^ sm4CK i) := by
  rw [← roundKey_eq_keyWord, roundKey, keyWindow, keyWindow_eq, keyRound]

/-- Settles O37: the words of `keyWord`, the first four the seed, the others by `keyWord_add_four`. -/
theorem keyScheduleFollowsItsRecurrence : Obligations.KeyScheduleFollowsItsRecurrence := by
  unfold Obligations.KeyScheduleFollowsItsRecurrence
  intro key _
  refine ⟨keyWord key, fun i hi => ?_, fun i _ => keyWord_add_four key i, ?_⟩
  · interval_cases i <;> rfl
  · simp only [keyExpand, funext (roundKey_eq_keyWord key)]

/-- The window after n rounds of the block transform (R151). -/
def cryptWindow (rk : List Word) (x : Quad) : Nat → Quad
  | 0 => x
  | n + 1 => cryptRound (cryptWindow rk x n) (rk.getD n 0)

theorem cryptWindow_sliding (rk : List Word) (x : Quad) : Sliding (cryptWindow rk x) := fun _ => ⟨rfl, rfl, rfl⟩

/-- The rounds after the first are those of the remaining keys. -/
theorem cryptWindow_cons (k : Word) (rk : List Word) (x : Quad) (n : Nat) :
    cryptWindow (k :: rk) x (n + 1) = cryptWindow rk (cryptRound x k) n := by
  induction n with
  | zero => rfl
  | succ n ih => rw [cryptWindow, ih]; rfl

/-- A run through all keys is as many rounds as there are keys (R151). -/
theorem foldl_cryptRound (rk : List Word) (x : Quad) : rk.foldl cryptRound x = cryptWindow rk x rk.length := by
  induction rk generalizing x with
  | nil => rfl
  | cons k rk ih => rw [List.foldl_cons, ih, List.length_cons, cryptWindow_cons]

/-- Word i of the block transform (R151). -/
def cryptWord (rk : List Word) (blk : Bytes) (i : Nat) : Word := (cryptWindow rk (Quad.ofBytes blk) i).x0

theorem cryptWindow_eq (rk : List Word) (blk : Bytes) (n : Nat) :
    cryptWindow rk (Quad.ofBytes blk) n =
      ⟨cryptWord rk blk n, cryptWord rk blk (n + 1), cryptWord rk blk (n + 2), cryptWord rk blk (n + 3)⟩ :=
  (cryptWindow_sliding rk _).eq_mk n

/-- The recurrence of the block transform (R151). -/
theorem cryptWord_add_four (rk : List Word) (blk : Bytes) (i : Nat) :
    cryptWord rk blk (i + 4) = cryptWord rk blk i ^^^
      sm4T (cryptWord rk blk (i + 1) ^^^ cryptWord rk blk (i + 2) ^^^ cryptWord rk blk (i + 3) ^^^ rk.getD i 0) := by
  rw [cryptWord, ← (cryptWindow_sliding rk _).x3_succ, cryptWindow, cryptWindow_eq, cryptRound]

/-- The output is the last four words, the last one first (R151). -/
theorem crypt_eq (rk : List Word) (blk : Bytes) :
    crypt rk blk = wordBytes (cryptWord rk blk (rk.length + 3)) ++ wordBytes (cryptWord rk blk (rk.length + 2)) ++
      wordBytes (cryptWord rk blk (rk.length + 1)) ++ wordBytes (cryptWord rk blk rk.length) := by
  rw [crypt, foldl_cryptRound, cryptWindow_eq, Quad.reverseBytes]

/-- Settles O38: the words of `cryptWord`, the first four those of the block, the others by
`cryptWord_add_four`, the output by `crypt_eq`. -/
theorem blockTransformFollowsItsRecurrence : Obligations.BlockTransformFollowsItsRecurrence := by
  unfold Obligations.BlockTransformFollowsItsRecurrence
  intro rk blk hrk _
  refine ⟨cryptWord rk blk, fun i hi => ?_, fun i _ => cryptWord_add_four rk blk i, ?_⟩
  · interval_cases i <;> rfl
  · rw [crypt_eq, hrk]

/-- Running the keys backwards on the swapped window takes the rounds back, the last one first (R154). -/
theorem foldl_cryptRound_reverse_swap (rk : List Word) (x : Quad) :
    rk.reverse.foldl cryptRound (rk.foldl cryptRound x).swap = x.swap := by
  induction rk generalizing x with
  | nil => rfl
  | cons k rk ih =>
    calc (k :: rk).reverse.foldl cryptRound ((k :: rk).foldl cryptRound x).swap
      _ = cryptRound (rk.reverse.foldl cryptRound (rk.foldl cryptRound (cryptRound x k)).swap) k := by
        rw [List.reverse_cons, List.foldl_append]; rfl
      _ = cryptRound (cryptRound x k).swap k := by rw [ih]
      _ = x.swap := cryptRound_swap x k

/-- Settles O39: the output of the first run is the swapped window, which the second run takes back. -/
theorem reversedRoundKeysInvertTheBlockTransform : Obligations.ReversedRoundKeysInvertTheBlockTransform := by
  unfold Obligations.ReversedRoundKeysInvertTheBlockTransform
  intro rk b _ hb
  rw [crypt, crypt, Quad.ofBytes_reverseBytes, foldl_cryptRound_reverse_swap, Quad.reverseBytes_swap_ofBytes b hb]

end Sys2Proof.Machine

/-!
PROOF. The commands SM4.SETKEY, SM4.ENC and SM4.DEC (41_sm4_cipher.md R150, R152, R153), and the statements about them
(O36, O42).
-/

namespace Sys2Proof.Machine

/-- A data command whose semantic function fails without a draw's code, with IOVF clear: the queues are empty, RESULT
is the failure's code, nothing else changes (R71, R288). -/
theorem exec_of_fail (i : Instr) (op : Op) (hop : dataOp i = some op) (s : State) (hv : s.iovf = false) (f : Failure)
    (hf : f.code ≠ .rng) (h : op s.iq s.eng s.rng = (.fail f, s.rng)) :
    exec i s = .next { s with iq := [], oq := [], iovf := false, result := f.code } := by
  rw [exec_of_answer i op hop s hv (.fail f) s.rng h, State.finish, State.raise, f.rngerr_of_code_ne hf]

/-- RKE of a new key, entry by entry (R150). -/
theorem Cipher.ofKey_rke_getElem (key : Bytes) (i : Fin 32) : (Cipher.ofKey key).rke[i] = (keyExpand key).getD i 0 := by
  rw [List.getD_eq_getElem _ _ (by simp)]
  rfl

/-- RKD of a new key, entry by entry: the round keys from the last to the first (R150). -/
theorem Cipher.ofKey_rkd_getElem (key : Bytes) (i : Fin 32) :
    (Cipher.ofKey key).rkd[i] = (keyExpand key).getD (31 - i) 0 := by
  have hrev : (keyExpand key).reverse.getD i = (keyExpand key).getD (31 - i) := by
    rw [List.getD_reverse _ (by simp), keyExpand_length]
  rw [← hrev, List.getD_eq_getElem _ _ (by simp)]
  rfl

/-- Settles O36: SM4.SETKEY's answer on each side of the length check, in the wrapper. -/
theorem setkeyLoadsBothSchedules : Obligations.SetkeyLoadsBothSchedules := by
  unfold Obligations.SetkeyLoadsBothSchedules
  refine fun s hv => ⟨fun hlen => ?_, fun hlen => ⟨Cipher.ofKey s.iq, ?_, rfl, fun i =>
    ⟨Cipher.ofKey_rke_getElem s.iq i, Cipher.ofKey_rkd_getElem s.iq i⟩⟩⟩
  · exact exec_of_fail .sm4Setkey opSm4Setkey rfl s hv .keyLength (by decide) (by simp [opSm4Setkey, hlen])
  · exact exec_of_ok .sm4Setkey opSm4Setkey rfl s hv _ _ (by simp [opSm4Setkey, hlen])

/-- What SM4.ENC and SM4.DEC answer, with the round keys each of them uses (R152, R153). -/
def blockAnswer (rk : List Word) (inp : Bytes) (eng : Engine) : OpResult :=
  if eng.c.keyv = false then .fail .noKey
  else if inp.length ≠ 16 then .fail .blockLength
  else .ok eng (crypt rk inp)

/-- SM4.ENC uses RKE (R152). -/
theorem opSm4Enc_eq (inp : Bytes) (eng : Engine) (rng : Rng) :
    opSm4Enc inp eng rng = (blockAnswer eng.c.rke.toList inp eng, rng) := rfl

/-- SM4.DEC uses RKD (R153). -/
theorem opSm4Dec_eq (inp : Bytes) (eng : Engine) (rng : Rng) :
    opSm4Dec inp eng rng = (blockAnswer eng.c.rkd.toList inp eng, rng) := rfl

/-- A command with the answer of `blockAnswer`, case by case: no key, a wrong length, the transform of the block. -/
theorem exec_of_blockAnswer (i : Instr) (op : Op) (hop : dataOp i = some op) (s : State) (hv : s.iovf = false)
    (rk : List Word) (h : op s.iq s.eng s.rng = (blockAnswer rk s.iq s.eng, s.rng)) :
    (s.eng.c.keyv = false →
      exec i s = .next { s with iq := [], oq := [], iovf := false, result := .noKey }) ∧
    (s.eng.c.keyv = true → s.iq.length ≠ 16 →
      exec i s = .next { s with iq := [], oq := [], iovf := false, result := .blockLength }) ∧
    (s.eng.c.keyv = true → s.iq.length = 16 →
      exec i s = .next { s with iq := [], oq := crypt rk s.iq, iovf := false, result := .ok }) := by
  refine ⟨fun hk => ?_, fun hk hlen => ?_, fun hk hlen => ?_⟩
  · exact exec_of_fail i op hop s hv .noKey (by decide) (by simp [h, blockAnswer, hk])
  · exact exec_of_fail i op hop s hv .blockLength (by decide) (by simp [h, blockAnswer, hk, hlen])
  · exact exec_of_ok i op hop s hv s.eng _ (by simp [h, blockAnswer, hk, hlen])

/-- Settles O42: both commands by `exec_of_blockAnswer`, SM4.ENC with RKE and SM4.DEC with RKD. -/
theorem blockCommandsTransformOneBlock : Obligations.BlockCommandsTransformOneBlock := by
  unfold Obligations.BlockCommandsTransformOneBlock
  intro s hv
  obtain ⟨hencKey, hencLen, henc⟩ := exec_of_blockAnswer .sm4Enc opSm4Enc rfl s hv _ (opSm4Enc_eq _ _ _)
  obtain ⟨hdecKey, hdecLen, hdec⟩ := exec_of_blockAnswer .sm4Dec opSm4Dec rfl s hv _ (opSm4Dec_eq _ _ _)
  exact ⟨fun hk => ⟨hencKey hk, hdecKey hk⟩, fun hk hlen => ⟨hencLen hk hlen, hdecLen hk hlen⟩,
    fun hk hlen => ⟨henc hk hlen, hdec hk hlen⟩⟩

end Sys2Proof.Machine

/-!
PROOF. The pad and its removal (42_sm4_modes.md R170, R171), and the statement about them (O43).
-/

namespace Sys2Proof.Machine

/-- Only the last byte says what is removed (R171). -/
theorem unpad_concat (q : Bytes) (n : Byte) :
    unpad (q ++ [n]) =
      if n.toNat > q.length + 1 then none else some ((q ++ [n]).take (q.length + 1 - n.toNat)) := by
  simp only [unpad, List.getLast?_concat, List.length_append, List.length_singleton]

/-- Bytes that count themselves are removed, whatever stands before them (R171). -/
theorem unpad_append_replicate (p : Bytes) (n : Nat) (hpos : 1 ≤ n) (hn : n < 256) :
    unpad (p ++ List.replicate n (BitVec.ofNat 8 n)) = some p := by
  obtain ⟨m, rfl⟩ := Nat.exists_eq_add_of_le' hpos
  have hlast : (BitVec.ofNat 8 (m + 1)).toNat = m + 1 := by simpa using hn
  rw [List.replicate_succ', ← List.append_assoc, unpad_concat, hlast, if_neg (by simp),
    List.append_assoc, List.take_left' (by simp)]

/-- Removing the pad gives the plaintext back (R171). -/
theorem unpad_pad16 (p : Bytes) : unpad (pad16 p) = some p :=
  unpad_append_replicate p (16 - p.length % 16) (by omega) (by omega)

/-- Settles O43: the pad as `pad16` writes it, its removal by the last byte (`unpad_concat`), and `unpad_pad16`. -/
theorem unpadUndoesThePad : Obligations.UnpadUndoesThePad := by
  unfold Obligations.UnpadUndoesThePad
  exact ⟨fun p => ⟨_, rfl, by omega, by omega, rfl, pad16_length p⟩, rfl, unpad_concat, unpad_pad16⟩

end Sys2Proof.Machine

/-!
PROOF. ECB encryption and decryption (42_sm4_modes.md R172, R173), and the statements about them (O44, O45).
-/

namespace Sys2Proof.Machine

/-- ECB of a sequence's blocks, by block number (R172, R173). -/
theorem ecb_blocks (rk : List Word) (s : Bytes) :
    ecb rk (blocks s) = (List.range (s.length / 16)).flatMap fun i => crypt rk (slice s (16 * i) 16) := by
  rw [ecb, blocks, List.flatMap_map]
  rfl

/-- SM4.ECB.ENC's answer with a key loaded (R172). -/
theorem opSm4EcbEnc_of_keyv (inp : Bytes) (eng : Engine) (rng : Rng) (hk : eng.c.keyv = true) :
    opSm4EcbEnc inp eng rng = (.ok eng (ecb eng.c.rke.toList (blocks (pad16 inp))), rng) := by
  simp [opSm4EcbEnc, hk]

/-- SM4.ECB.DEC's answer to whole blocks with a key loaded (R173). -/
theorem opSm4EcbDec_of_keyv (inp : Bytes) (eng : Engine) (rng : Rng) (hk : eng.c.keyv = true)
    (hlen : inp.length % 16 = 0) :
    opSm4EcbDec inp eng rng = (unpadResult eng (ecb eng.c.rkd.toList (blocks inp)), rng) := by
  simp [opSm4EcbDec, hk, hlen]

theorem unpadResult_of_none (eng : Engine) (q : Bytes) (h : unpad q = none) :
    unpadResult eng q = .fail .badPadding := by
  simp [unpadResult, h]

theorem unpadResult_of_some (eng : Engine) (q p : Bytes) (h : unpad q = some p) : unpadResult eng q = .ok eng p := by
  simp [unpadResult, h]

/-- The end of both decryption commands: E_BAD_PADDING, or the data without its pad (R173, R175). -/
theorem exec_of_unpadResult (i : Instr) (op : Op) (hop : dataOp i = some op) (s : State) (hv : s.iovf = false)
    (q : Bytes) (h : op s.iq s.eng s.rng = (unpadResult s.eng q, s.rng)) :
    (unpad q = none → exec i s = .next { s with iq := [], oq := [], iovf := false, result := .badPadding }) ∧
    (∀ p, unpad q = some p → exec i s = .next { s with iq := [], oq := p, iovf := false, result := .ok }) := by
  refine ⟨fun hq => ?_, fun p hq => ?_⟩
  · exact exec_of_fail i op hop s hv .badPadding (by decide) (by rw [h, unpadResult_of_none _ _ hq])
  · exact exec_of_ok i op hop s hv s.eng p (by rw [h, unpadResult_of_some _ _ _ hq])

/-- Settles O44: SM4.ECB.ENC's answer on each side of the key check, the output by `ecb_blocks`. -/
theorem ecbEncryptCompletes : Obligations.EcbEncryptCompletes := by
  unfold Obligations.EcbEncryptCompletes
  refine fun s hv => ⟨fun hk => ?_, fun hk => ?_⟩
  · exact exec_of_fail .sm4EcbEnc opSm4EcbEnc rfl s hv .noKey (by decide) (by simp [opSm4EcbEnc, hk])
  · have hcount : (pad16 s.iq).length / 16 = s.iq.length / 16 + 1 := by simp
    rw [exec_of_ok .sm4EcbEnc opSm4EcbEnc rfl s hv _ _ (opSm4EcbEnc_of_keyv _ _ _ hk), ecb_blocks, hcount]

/-- Settles O45: the two checks fail in their order, and past them `exec_of_unpadResult` on the decrypted data. -/
theorem ecbDecryptCompletes : Obligations.EcbDecryptCompletes := by
  unfold Obligations.EcbDecryptCompletes
  intro s q hv hq
  have hend (hk : s.eng.c.keyv = true) (hlen : s.iq.length % 16 = 0) :=
    exec_of_unpadResult .sm4EcbDec opSm4EcbDec rfl s hv q
      (by rw [hq, ← ecb_blocks, opSm4EcbDec_of_keyv _ _ _ hk hlen])
  refine ⟨fun hk => ?_, fun hk hlen => ?_, fun hk hlen => (hend hk hlen).1, fun hk hlen => (hend hk hlen).2⟩
  · exact exec_of_fail .sm4EcbDec opSm4EcbDec rfl s hv .noKey (by decide) (by simp [opSm4EcbDec, hk])
  · exact exec_of_fail .sm4EcbDec opSm4EcbDec rfl s hv .dataLength (by decide) (by simp [opSm4EcbDec, hk, hlen])

end Sys2Proof.Machine

/-!
PROOF. CBC encryption and decryption (42_sm4_modes.md R174, R175), and the statements about them (O46, O47).
-/

namespace Sys2Proof.Machine

/-- The chain of CBC over the plaintext blocks `q 0, q 1, …`: the IV, then block by block the ciphertext (R174). -/
def cbcChain (rk : List Word) (iv : Bytes) (q : Nat → Bytes) : Nat → Bytes
  | 0 => iv
  | i + 1 => crypt rk (xorBytes (q i) (cbcChain rk iv q i))

/-- The chain from its second element on is the chain of the remaining blocks after the first ciphertext block. -/
theorem cbcChain_succ (rk : List Word) (iv : Bytes) (q : Nat → Bytes) (i : Nat) :
    cbcChain rk iv q (i + 1) = cbcChain rk (crypt rk (xorBytes (q 0) iv)) (fun j => q (j + 1)) i := by
  induction i with
  | zero => rfl
  | succ i ih => rw [cbcChain, ih, cbcChain]

/-- The first element of a run stands apart from the others, which move up by one. -/
theorem flatMap_range_succ (f : Nat → Bytes) (n : Nat) :
    (List.range (n + 1)).flatMap f = f 0 ++ (List.range n).flatMap fun i => f (i + 1) := by
  rw [List.range_succ_eq_map, List.flatMap_cons, List.flatMap_map]

/-- The IV and the encrypted blocks are the chain, joined (R174). -/
theorem append_cbcEncBlocks (rk : List Word) (iv : Bytes) (q : Nat → Bytes) (n : Nat) :
    iv ++ cbcEncBlocks rk iv ((List.range n).map q) = (List.range (n + 1)).flatMap (cbcChain rk iv q) := by
  induction n generalizing iv q with
  | zero => simp [cbcEncBlocks, cbcChain]
  | succ n ih =>
    rw [List.range_succ_eq_map, List.map_cons, List.map_map, cbcEncBlocks]
    simp only [Function.comp_def]
    rw [ih, flatMap_range_succ _ (n + 1), cbcChain]
    simp only [cbcChain_succ]

/-- Every block decrypted is combined with the one before it (R175). -/
theorem cbcDecBlocks_map_range (rk : List Word) (c : Nat → Bytes) (n : Nat) :
    cbcDecBlocks rk (c 0) ((List.range n).map fun i => c (i + 1)) =
      (List.range n).flatMap fun i => xorBytes (crypt rk (c (i + 1))) (c i) := by
  induction n generalizing c with
  | zero => rfl
  | succ n ih =>
    rw [flatMap_range_succ, ← ih fun i => c (i + 1), List.range_succ_eq_map, List.map_cons, List.map_map,
      cbcDecBlocks]
    rfl

/-- The blocks after the first one (R79). -/
theorem blocks_drop (s : Bytes) :
    blocks (s.drop 16) = (List.range (s.length / 16 - 1)).map fun i => block s (i + 1) := by
  have hcount : (s.drop 16).length / 16 = s.length / 16 - 1 := by rw [List.length_drop]; omega
  rw [blocks, hcount]
  refine List.map_congr_left fun i _ => ?_
  rw [block, block, slice, slice, List.drop_drop, Nat.mul_add, Nat.add_comm]

/-- CBC decryption of a sequence whose first block is the IV, by block number (R175). -/
theorem cbcDecBlocks_blocks (rk : List Word) (s : Bytes) :
    cbcDecBlocks rk (s.take 16) (blocks (s.drop 16)) = (List.range (s.length / 16 - 1)).flatMap fun i =>
      xorBytes (crypt rk (slice s (16 * (i + 1)) 16)) (slice s (16 * i) 16) := by
  rw [blocks_drop]
  exact cbcDecBlocks_map_range rk (block s) _

/-- SM4.CBC.ENC's answer with a key loaded: that to its draw (R174). -/
theorem opSm4CbcEnc_of_keyv (inp : Bytes) (eng : Engine) (rng : Rng) (hk : eng.c.keyv = true)
    (a : RngAnswer (Vector Byte 16)) (r : Rng) (hd : rng.drawIv = (a, r)) :
    opSm4CbcEnc inp eng rng = (cbcEncResult eng inp a, r) := by
  simp [opSm4CbcEnc, hk, hd]

/-- SM4.CBC.DEC's answer to an IV and whole blocks with a key loaded (R175). -/
theorem opSm4CbcDec_of_keyv (inp : Bytes) (eng : Engine) (rng : Rng) (hk : eng.c.keyv = true)
    (hiv : 16 ≤ inp.length) (hlen : inp.length % 16 = 0) :
    opSm4CbcDec inp eng rng =
      (unpadResult eng (cbcDecBlocks eng.c.rkd.toList (inp.take 16) (blocks (inp.drop 16))), rng) := by
  simp [opSm4CbcDec, hk, hlen, Nat.not_lt.mpr hiv]

/-- SM4.CBC.ENC with a key loaded, its draw answered with an IV: the output is the IV and the encrypted
blocks, the random source the one after the draw (R174). -/
theorem exec_sm4CbcEnc_of_iv (s : State) (hv : s.iovf = false) (hk : s.eng.c.keyv = true) (iv : Vector Byte 16)
    (r : Rng) (hd : s.rng.drawIv = (.ok iv, r)) :
    exec .sm4CbcEnc s = .next { s with
      iq := [], oq := iv.toList ++ cbcEncBlocks s.eng.c.rke.toList iv.toList (blocks (pad16 s.iq))
      iovf := false, result := .ok, rng := r } :=
  exec_of_answer .sm4CbcEnc opSm4CbcEnc rfl s hv _ r (opSm4CbcEnc_of_keyv _ _ _ hk _ _ hd)

/-- Settles O46: no key by `exec_of_fail`, the failed draw passed on, and the output as the chain of `cbcChain`. -/
theorem cbcEncryptCompletes : Obligations.CbcEncryptCompletes := by
  unfold Obligations.CbcEncryptCompletes
  refine fun s hv => ⟨fun hk => ?_, fun hk code r hd => ?_, fun hk iv r hd => ?_⟩
  · exact exec_of_fail .sm4CbcEnc opSm4CbcEnc rfl s hv .noKey (by decide) (by simp [opSm4CbcEnc, hk])
  · exact exec_of_answer .sm4CbcEnc opSm4CbcEnc rfl s hv _ r (opSm4CbcEnc_of_keyv _ _ _ hk _ _ hd)
  · have hcount : (pad16 s.iq).length / 16 = s.iq.length / 16 + 1 := by simp
    refine ⟨cbcChain s.eng.c.rke.toList iv.toList (block (pad16 s.iq)), rfl, fun _ _ => rfl, ?_⟩
    rw [exec_sm4CbcEnc_of_iv s hv hk iv r hd, blocks, append_cbcEncBlocks, hcount]

/-- Settles O47: the checks fail in their order, and past them `exec_of_unpadResult` on the decrypted data. -/
theorem cbcDecryptCompletes : Obligations.CbcDecryptCompletes := by
  unfold Obligations.CbcDecryptCompletes
  intro s q hv hq
  have hend (hk : s.eng.c.keyv = true) (hiv : 16 ≤ s.iq.length) (hlen : s.iq.length % 16 = 0) :=
    exec_of_unpadResult .sm4CbcDec opSm4CbcDec rfl s hv q
      (by rw [hq, ← cbcDecBlocks_blocks, opSm4CbcDec_of_keyv _ _ _ hk hiv hlen])
  refine ⟨fun hk => ?_, fun hk hlen => ?_, fun hk hiv hlen => (hend hk hiv hlen).1,
    fun hk hiv hlen => (hend hk hiv hlen).2⟩
  · exact exec_of_fail .sm4CbcDec opSm4CbcDec rfl s hv .noKey (by decide) (by simp [opSm4CbcDec, hk])
  · exact exec_of_fail .sm4CbcDec opSm4CbcDec rfl s hv .dataLength (by decide)
      (by rcases hlen with hlen | hlen <;> simp [opSm4CbcDec, hk, hlen])

end Sys2Proof.Machine

/-!
PROOF. Both modes of decryption undo encryption (42_sm4_modes.md R176), block by block because the reversed round keys
invert the block transform (O39), and the statement about them (O48).
-/

namespace Sys2Proof.Machine

/-- ECB with the reversed round keys gives the blocks back (R176). -/
theorem ecb_reverse_ecb (rk : List Word) (hrk : rk.length = 32) (bs : List Bytes) (hbs : ∀ b ∈ bs, b.length = 16) :
    ecb rk.reverse (blocks (ecb rk bs)) = bs.flatten := by
  induction bs with
  | nil => simp [ecb]
  | cons b bs ih =>
    obtain ⟨hb, hrest⟩ := List.forall_mem_cons.mp hbs
    simp only [ecb, List.flatMap_cons, List.flatten_cons] at ih ⊢
    rw [blocks_append _ _ (crypt_length rk b), List.flatMap_cons, ih hrest,
      reversedRoundKeysInvertTheBlockTransform rk b hrk hb]

/-- CBC decryption with the reversed round keys gives the blocks back, from the same block before the first (R176). -/
theorem cbcDecBlocks_cbcEncBlocks (rk : List Word) (hrk : rk.length = 32) (prev : Bytes) (hprev : prev.length = 16)
    (bs : List Bytes) (hbs : ∀ b ∈ bs, b.length = 16) :
    cbcDecBlocks rk.reverse prev (blocks (cbcEncBlocks rk prev bs)) = bs.flatten := by
  induction bs generalizing prev with
  | nil => simp [cbcEncBlocks, cbcDecBlocks]
  | cons b bs ih =>
    obtain ⟨hb, hrest⟩ := List.forall_mem_cons.mp hbs
    have hx : (xorBytes b prev).length = 16 := by simp [hb, hprev]
    rw [cbcEncBlocks, blocks_append _ _ (crypt_length _ _), cbcDecBlocks, ih _ (crypt_length _ _) hrest,
      reversedRoundKeysInvertTheBlockTransform rk _ hrk hx, xorBytes_cancel _ _ (by omega), List.flatten_cons]

/-- The blocks of the padded plaintext, joined, lose their pad (R170, R171). -/
theorem unpad_flatten_blocks_pad16 (p : Bytes) : unpad (blocks (pad16 p)).flatten = some p := by
  rw [flatten_blocks _ (pad16_length_mod p), unpad_pad16]

/-- SM4.ECB.DEC answers the plaintext to the output of SM4.ECB.ENC, with both arrays of one schedule (R176). -/
theorem opSm4EcbDec_ecb (p : Bytes) (eng : Engine) (rng : Rng) (hk : eng.c.keyv = true) (hwf : eng.c.wf) :
    opSm4EcbDec (ecb eng.c.rke.toList (blocks (pad16 p))) eng rng = (.ok eng p, rng) := by
  rw [opSm4EcbDec_of_keyv _ _ _ hk (by simp), hwf hk,
    ecb_reverse_ecb _ (by simp) _ (length_of_mem_blocks _), unpadResult_of_some _ _ _ (unpad_flatten_blocks_pad16 p)]

/-- SM4.CBC.DEC answers the plaintext to the output of SM4.CBC.ENC, whatever the IV (R176). -/
theorem opSm4CbcDec_cbcEncBlocks (p : Bytes) (eng : Engine) (rng : Rng) (hk : eng.c.keyv = true) (hwf : eng.c.wf)
    (iv : Vector Byte 16) :
    opSm4CbcDec (iv.toList ++ cbcEncBlocks eng.c.rke.toList iv.toList (blocks (pad16 p))) eng rng =
      (.ok eng p, rng) := by
  have hiv : iv.toList.length = 16 := iv.length_toList
  rw [opSm4CbcDec_of_keyv _ _ _ hk (by simp) (by simp), List.take_left' hiv, List.drop_left' hiv, hwf hk,
    cbcDecBlocks_cbcEncBlocks _ (by simp) _ hiv _ (length_of_mem_blocks _),
    unpadResult_of_some _ _ _ (unpad_flatten_blocks_pad16 p)]

/-- ECB decryption undoes ECB encryption in every state with a key loaded and both arrays of one schedule (R176). -/
theorem exec_sm4EcbDec_of_ecbEnc (s : State) (hv : s.iovf = false) (hk : s.eng.c.keyv = true) (hwf : s.eng.c.wf)
    (p : Bytes) :
    ∃ t u, exec .sm4EcbEnc { s with iq := p } = .next t ∧ t.result = .ok ∧
      exec .sm4EcbDec { t with iq := t.oq } = .next u ∧ u.result = .ok ∧ u.oq = p := by
  have henc := exec_of_ok .sm4EcbEnc opSm4EcbEnc rfl { s with iq := p } hv _ _ (opSm4EcbEnc_of_keyv _ _ _ hk)
  exact ⟨_, _, henc, rfl, exec_of_ok .sm4EcbDec opSm4EcbDec rfl _ rfl _ _ (opSm4EcbDec_ecb p _ _ hk hwf), rfl, rfl⟩

/-- CBC decryption undoes CBC encryption in every such state, for every IV drawn (R176). -/
theorem exec_sm4CbcDec_of_cbcEnc (s : State) (hv : s.iovf = false) (hk : s.eng.c.keyv = true) (hwf : s.eng.c.wf)
    (p : Bytes) (iv : Vector Byte 16) (r : Rng) (hd : s.rng.drawIv = (.ok iv, r)) :
    ∃ t u, exec .sm4CbcEnc { s with iq := p } = .next t ∧ t.result = .ok ∧
      exec .sm4CbcDec { t with iq := t.oq } = .next u ∧ u.result = .ok ∧ u.oq = p := by
  have henc := exec_sm4CbcEnc_of_iv { s with iq := p } hv hk iv r hd
  exact ⟨_, _, henc, rfl,
    exec_of_ok .sm4CbcDec opSm4CbcDec rfl _ rfl _ _ (opSm4CbcDec_cbcEncBlocks p _ _ hk hwf iv), rfl, rfl⟩

/-- Settles O48: the state SM4.SETKEY leaves has a key loaded and both arrays of its schedule, so both modes come back. -/
theorem modesRoundTrip : Obligations.ModesRoundTrip := by
  unfold Obligations.ModesRoundTrip
  intro s key p hv hkey
  have hop : opSm4Setkey key s.eng s.rng = (.ok { s.eng with c := Cipher.ofKey key } [], s.rng) := by
    simp [opSm4Setkey, hkey]
  have hset := exec_of_ok .sm4Setkey opSm4Setkey rfl { s with iq := key } hv _ _ hop
  have hwf : (Cipher.ofKey key).wf := fun _ => rfl
  exact ⟨_, hset, rfl, exec_sm4EcbDec_of_ecbEnc _ rfl rfl hwf p,
    fun iv r hd => exec_sm4CbcDec_of_cbcEnc _ rfl rfl hwf p iv r hd⟩

end Sys2Proof.Machine

/-!
PROOF. The curve test over the integers modulo P (43_sm2_field_curve.md R208, R210), and the statement about it (O49).
-/

namespace Sys2Proof.Machine

/-- The coefficient A of the curve is P - 3 (R208). -/
theorem curveA_eq : curveA = curveP - 3 := by decide

/-- The field expression x³ + A·x + B, each operation reduced, is the same expression over the integers reduced
once (R201, R203). -/
theorem curveRhs_eq_mod (x : Nat) :
    fadd (fadd (fmul (fmul x x) x) (fmul curveA x)) curveB = (x * x * x + curveA * x + curveB) % curveP := by
  simp only [fadd, fmul]
  rw [Nat.mod_mul_mod, ← Nat.add_mod, Nat.mod_add_mod]

/-- The curve test as a proposition: two bounds and an equation of field elements (R210). -/
theorem onCurve_iff (x y : Nat) :
    onCurve x y = true ↔
      x < curveP ∧ y < curveP ∧ fmul y y = fadd (fadd (fmul (fmul x x) x) (fmul curveA x)) curveB := by
  simp only [onCurve, Bool.and_eq_true, decide_eq_true_eq, beq_iff_eq, and_assoc]

/-- Settles O49: the test's equation of field elements is the curve equation modulo P (`curveRhs_eq_mod`). -/
theorem onCurveTestsTheCurveEquation : Obligations.OnCurveTestsTheCurveEquation := by
  unfold Obligations.OnCurveTestsTheCurveEquation
  intro x y
  rw [onCurve_iff, curveRhs_eq_mod, curveA_eq, fmul]

end Sys2Proof.Machine

/-!
PROOF. The key derivation and the all-zero test (44_sm2_scheme.md R230, R236), and the statements about them (O53,
O54).
-/

namespace Sys2Proof.Machine

@[simp] theorem kdf_length (seed : Bytes) (len : Nat) : (kdf seed len).length = len := by
  rw [kdf, List.length_take, kdfBlocks_length]
  omega

/-- Byte n of the joined blocks lies in block n / 32, whose counter is one more (R230). -/
theorem kdfBlocks_getElem? (seed : Bytes) (m n : Nat) (h : n < 32 * m) :
    ((List.range m).flatMap fun i => kdfBlock seed (i + 1))[n]? = (kdfBlock seed (n / 32 + 1))[n % 32]? := by
  induction m with
  | zero => omega
  | succ m ih =>
    rw [List.range_succ, List.flatMap_append, List.flatMap_singleton]
    by_cases hlast : n < 32 * m
    · rw [List.getElem?_append_left (by rwa [kdfBlocks_length]), ih hlast]
    · have hdiv : n / 32 = m := by omega
      have hmod : n % 32 = n - 32 * m := by omega
      rw [List.getElem?_append_right (by rw [kdfBlocks_length]; omega), kdfBlocks_length, hdiv, hmod]

/-- Settles O53: the cut keeps the bytes below L, and each is a byte of its block (`kdfBlocks_getElem?`). -/
theorem kdfConcatenatesCounterHashes : Obligations.KdfConcatenatesCounterHashes := by
  unfold Obligations.KdfConcatenatesCounterHashes
  refine fun seed len => ⟨kdf_length seed len, fun n hn => ?_⟩
  rw [kdf, List.getElem?_take_of_lt hn, kdfBlocks_getElem? _ _ _ (by omega), kdfBlock]

/-- Settles O54: the empty sequence fails the length bound, and on any other the test looks at every byte. -/
theorem allZeroNeedsAByte : Obligations.AllZeroNeedsAByte := by
  unfold Obligations.AllZeroNeedsAByte
  intro t
  cases t with
  | nil => simp [allZero]
  | cons b t => simp [allZero]

end Sys2Proof.Machine

/-!
PROOF. The commands SM2.KEYGEN and SM2.DEC (44_sm2_scheme.md R232, R234), and the statements about them (O55, O58).
-/

namespace Sys2Proof.Machine

/-- SM2.KEYGEN's answer is that to its draw (R232). -/
theorem opSm2Keygen_of_draw (inp : Bytes) (eng : Engine) (rng : Rng) (a : RngAnswer Scalar) (r : Rng)
    (hd : rng.drawScalar = (a, r)) : opSm2Keygen inp eng rng = (keygenResult eng a, r) := by
  simp [opSm2Keygen, hd]

/-- The output of SM2.KEYGEN is the 32-byte encodings of its three numbers, most significant byte first (R80). -/
theorem keyPair_eq_flatMap (d x y : Nat) :
    keyPair d x y =
      [d, x, y].flatMap fun z => (List.range 32).map fun i => BitVec.ofNat 8 (z / 256 ^ (31 - i)) := by
  simp [keyPair, i2b32, i2b_eq_map 32]

/-- Settles O55: the answer to either draw in the wrapper, the output by `keyPair_eq_flatMap`. -/
theorem keygenGivesTheScalarAndItsPoint : Obligations.KeygenGivesTheScalarAndItsPoint := by
  unfold Obligations.KeygenGivesTheScalarAndItsPoint
  refine fun s r hv => ⟨fun code hd => ?_, fun d hd => ?_⟩
  · exact exec_of_answer .sm2Keygen opSm2Keygen rfl s hv _ r (opSm2Keygen_of_draw _ _ _ _ _ hd)
  · rw [exec_of_answer .sm2Keygen opSm2Keygen rfl s hv _ r (opSm2Keygen_of_draw _ _ _ _ _ hd), ← keyPair_eq_flatMap]
    rfl

/-! SM2.DEC's answer to an input that fails its checks on the length, on the marker or on C1, or passes them all
(R234). -/

theorem opSm2Dec_of_short (inp : Bytes) (eng : Engine) (rng : Rng) (hlen : inp.length < 129) :
    opSm2Dec inp eng rng = (.fail .truncatedInput, rng) := by
  simp [opSm2Dec, hlen]

theorem opSm2Dec_of_marker_ne (inp : Bytes) (eng : Engine) (rng : Rng) (hlen : ¬ inp.length < 129)
    (hmark : ctMarker (decCipher inp) ≠ 0x04#8) : opSm2Dec inp eng rng = (.fail .invalidPoint, rng) := by
  simp [opSm2Dec, hlen, hmark]

theorem opSm2Dec_of_not_onCurve (inp : Bytes) (eng : Engine) (rng : Rng) (hlen : ¬ inp.length < 129)
    (hcurve : onCurve (ctX (decCipher inp)) (ctY (decCipher inp)) = false) :
    opSm2Dec inp eng rng = (.fail .invalidPoint, rng) := by
  simp [opSm2Dec, hlen, hcurve]

theorem opSm2Dec_of_onCurve (inp : Bytes) (eng : Engine) (rng : Rng) (hlen : ¬ inp.length < 129)
    (hmark : ctMarker (decCipher inp) = 0x04#8)
    (hcurve : onCurve (ctX (decCipher inp)) (ctY (decCipher inp)) ≠ false) :
    opSm2Dec inp eng rng =
      (decResult eng (decCipher inp)
        (scalarMul (decScalar inp) (.affine (ctX (decCipher inp)) (ctY (decCipher inp)))), rng) := by
  simp [opSm2Dec, hlen, hmark, hcurve]

/-- With a shared point other than INF, the tag of the decrypted message decides (R234). -/
theorem decResult_of_ne_inf (eng : Engine) (c m : Bytes) (s : Point) (hinf : s ≠ .inf)
    (hm : m = xorBytes (ctC2 c) (keystream s (c.length - 97))) :
    decResult eng c s = if tag s m ≠ ctC3 c then .fail .authFailure else .ok eng m := by
  rw [← List.length_drop] at hm
  obtain ⟨h, -⟩ | ⟨-, h⟩ := decResult_cases eng c s
  · exact absurd h hinf
  · rw [h, hm]
    rfl

/-- Settles O58: the checks on the input fail in their order; past them the answer is that for the shared point
(`opSm2Dec_of_onCurve`), which is decided by INF and then by the tag (`decResult_of_ne_inf`). -/
theorem sm2DecryptChecksInOrder : Obligations.Sm2DecryptChecksInOrder := by
  unfold Obligations.Sm2DecryptChecksInOrder
  intro s c m sh hv hc hsh hm
  obtain rfl : c = decCipher s.iq := hc
  have hfail (f : Failure) := exec_of_fail .sm2Dec opSm2Dec rfl s hv f
  split_ifs with hlen hmark hcurve hinf htag
  · exact hfail .truncatedInput (by decide) (opSm2Dec_of_short _ _ _ hlen)
  · exact hfail .invalidPoint (by decide) (opSm2Dec_of_marker_ne _ _ _ hlen hmark)
  · exact hfail .invalidPoint (by decide) (opSm2Dec_of_not_onCurve _ _ _ hlen hcurve)
  all_goals
    have hop : opSm2Dec s.iq s.eng s.rng = (decResult s.eng (decCipher s.iq) sh, s.rng) := by
      rw [hsh]
      exact opSm2Dec_of_onCurve _ _ _ hlen (not_not.mp hmark) hcurve
  · exact hfail .invalidKey (by decide) (by rw [hop, hinf, decResult])
  all_goals rw [decResult_of_ne_inf _ _ _ _ hinf hm] at hop
  · exact hfail .authFailure (by decide) (hop.trans (by rw [if_pos (by exact htag)]))
  · exact exec_of_ok .sm2Dec opSm2Dec rfl s hv _ _ (hop.trans (by rw [if_neg (by exact htag)]))

end Sys2Proof.Machine

/-!
PROOF. The system commands (45_system.md R260 to R262), each with the whole next state (O12 to O14).
-/

namespace Sys2Proof.Machine

/-- Taking the access placed before a host's agenda gives back the state it was placed in. -/
theorem State.withAgenda_withProgram_cons (s : State) (a : HostAction) :
    (s.withProgram (a :: s.host.agenda)).withAgenda s.host.agenda = s := rfl

/-- A hardware reset as the very next event gives the state SYS.SRST gives, the round keys included: the model zeroes
them in both (R261, log 4). -/
theorem step_withProgram_reset (s : State) :
    step (s.withProgram (.reset :: s.host.agenda)) = exec .sysSrst s := by
  rw [step_reset _ s.host.agenda rfl, State.withAgenda_withProgram_cons, exec_sysSrst]

/-- Settles O12: SYS.SRST writes the reset value of every element of the core, whatever IOVF is, and a hardware reset
gives the same state (`step_withProgram_reset`). -/
theorem softResetEqualsHardwareReset : Obligations.SoftResetEqualsHardwareReset := by
  unfold Obligations.SoftResetEqualsHardwareReset
  intro s
  have hsoft : exec .sysSrst s = .next s.resetCore := exec_sysSrst s
  have hhard : step (s.withProgram (.reset :: s.host.agenda)) = .next s.resetCore :=
    (step_withProgram_reset s).trans hsoft
  exact ⟨_, _, hsoft, rfl, rfl, rfl, rfl, rfl, rfl, rfl, rfl, rfl, rfl, hhard, rfl⟩

/-- Settles O13: SYS.NOP's answer is the state it is given. -/
theorem nopChangesNothing : Obligations.NopChangesNothing := exec_sysNop

/-- Settles O14: SYS.FLUSH takes the input, which empties the queues and clears IOVF, and writes RESULT. -/
theorem flushEmptiesTheQueues : Obligations.FlushEmptiesTheQueues := exec_sysFlush

end Sys2Proof.Machine

/-!
PROOF. The errors of 60_exceptions.md: the result codes (R270), the input overflow (R282) and the missing key (R276),
with the statements about them (O8, O16, O41).
-/

namespace Sys2Proof.Machine

/-- No code's number is above that of E_INPUT_OVERFLOW (R270). -/
theorem ResultCode.byte_toNat_le (c : ResultCode) : c.byte.toNat ≤ 0x0C := by
  cases c <;> decide

/-- The number says which code it is: R270 numbers the codes in the order in which `ResultCode` lists them. -/
theorem ResultCode.ofNat_byte_toNat (c : ResultCode) : ResultCode.ofNat c.byte.toNat = c := by
  cases c <;> rfl

/-- No two codes have one number (R270). -/
theorem ResultCode.byte_inj (c d : ResultCode) (h : c.byte = d.byte) : c = d := by
  rw [← c.ofNat_byte_toNat, h, d.ofNat_byte_toNat]

/-- Settles O8: the bound and the distinctness are the lemmas above, and each number is a row of `ResultCode.byte`. -/
theorem resultCodesAreThirteenNumbers : Obligations.ResultCodesAreThirteenNumbers :=
  ⟨ResultCode.byte_toNat_le, ResultCode.byte_inj, rfl, rfl, rfl, rfl, rfl, rfl, rfl, rfl, rfl, rfl, rfl, rfl, rfl⟩

/-- Every command but the three system commands is a data command (R282). -/
theorem isData_of_ne_system (i : Instr) (hnop : i ≠ .sysNop) (hsrst : i ≠ .sysSrst) (hflush : i ≠ .sysFlush) :
    i.isData = true := by
  cases i
  case sysNop => exact absurd rfl hnop
  case sysSrst => exact absurd rfl hsrst
  case sysFlush => exact absurd rfl hflush
  all_goals rfl

/-- Settles O16: such a command runs in the wrapper (`exec_of_dataOp`), which with IOVF set raises E_INPUT_OVERFLOW
whatever the command's semantic function is (`runCommand_of_iovf`). -/
theorem inputOverflowFailsDataCommands : Obligations.InputOverflowFailsDataCommands := by
  unfold Obligations.InputOverflowFailsDataCommands
  intro i s hnop hsrst hflush hv
  obtain ⟨op, hop⟩ := exists_dataOp i (isData_of_ne_system i hnop hsrst hflush)
  rw [exec_of_dataOp i op hop, runCommand_of_iovf op s hv]
  rfl

/-- Settles O41: the first clause of each command's own statement (O42, O44 to O47) is its failure without a key. -/
theorem cipherCommandsNeedAKey : Obligations.CipherCommandsNeedAKey := by
  unfold Obligations.CipherCommandsNeedAKey
  intro i s hi hv hk
  obtain ⟨hblock, -⟩ := blockCommandsTransformOneBlock s hv
  obtain ⟨hecbEnc, -⟩ := ecbEncryptCompletes s hv
  obtain ⟨hecbDec, -⟩ := ecbDecryptCompletes s _ hv rfl
  obtain ⟨hcbcEnc, -⟩ := cbcEncryptCompletes s hv
  obtain ⟨hcbcDec, -⟩ := cbcDecryptCompletes s _ hv rfl
  obtain ⟨henc, hdec⟩ := hblock hk
  simp only [List.mem_cons, List.not_mem_nil, or_false] at hi
  rcases hi with rfl | rfl | rfl | rfl | rfl | rfl
  · exact henc
  · exact hdec
  · exact hecbEnc hk
  · exact hecbDec hk
  · exact hcbcEnc hk
  · exact hcbcDec hk

end Sys2Proof.Machine

/-!
PROOF. What a step can do to the state, said once (20_memory.md R51, R52, R63), and the invariant of the state, which
holds at reset and is kept by every step (O24, O25).
-/

namespace Sys2Proof.Machine

/-- The state `t` is what a step can make of `s`: after a hardware reset, one more pass of SM2.ENC's loop, a command,
an illegal word, a push, a write that is ignored, a read, or nothing. -/
inductive StepsTo (s t : State) : Prop where
  | reset (rest : List HostAction) (ha : s.host.agenda = .reset :: rest) (ht : t = (s.withAgenda rest).resetCore)
  | pass (inp : Bytes) (hb : s.busy = some inp) (ht : t = retryPass inp s)
  | command (w : Word) (i : Instr) (rest : List HostAction) (hb : s.busy = none)
      (ha : s.host.agenda = .write .cmd w :: rest) (hd : decode w = .ok i)
      (hexec : exec i (s.withAgenda rest) = .next t)
  | illegal (rest : List HostAction) (hb : s.busy = none) (ht : t = (s.withAgenda rest).takeInput.raise .illegalCmd)
  | push (b : Byte) (rest : List HostAction) (hb : s.busy = none) (ht : t = (s.withAgenda rest).push b)
  | ignored (rest : List HostAction) (ht : t = s.withAgenda rest)
  | read (r : HostReg) (rest : List HostAction) (hb : s.busy = none) (ht : t = (s.withAgenda rest).hostRead r)
  | idle (ht : t = s)

/-- Every step is one of these. -/
theorem stepsTo_of_step (s t : State) (h : step s = .next t) : StepsTo s t := by
  have htarget (u : State) (hu : step s = .next u) : t = u := Host.Outcome.next.inj (h.symm.trans hu)
  rcases step_cases s with
    ⟨rest, ha, hs⟩ | ⟨inp, hb, hs⟩ | ⟨r, v, rest, hb, ha, hs⟩ | ⟨r, rest, hb, -, hs⟩ | ⟨-, -, hs⟩
  · exact .reset rest ha (htarget _ hs)
  · exact .pass inp hb (htarget _ hs)
  · rcases hostWrite_cases r v (s.withAgenda rest) with ⟨i, rfl, hd, hw⟩ | ⟨e, -, -, hw⟩ | ⟨-, hw⟩ | ⟨-, -, hw⟩
    · exact .command v i rest hb ha hd (hw.symm.trans (hs.symm.trans h))
    · exact .illegal rest hb (htarget _ (hs.trans hw))
    · exact .push _ rest hb (htarget _ (hs.trans hw))
    · exact .ignored rest (htarget _ (hs.trans hw))
  · exact .read r rest hb (htarget _ hs)
  · exact .idle (htarget _ hs)

/-- The core at its reset values meets the invariant, whatever the host and the random source hold (R49). -/
theorem State.resetCore_inv (s : State) : s.resetCore.Inv where
  iq := Nat.zero_le _
  oq := Nat.zero_le _
  hash := HashCtx.new_wf
  cipher := fun hk => absurd hk Bool.false_ne_true
  busy := fun _ hb => nomatch hb

/-- Settles O24: the reset state is the core at its reset values (`State.resetCore_inv`). -/
theorem invariantHoldsAtReset : Obligations.InvariantHoldsAtReset :=
  State.reset.resetCore_inv

/-- Emptying the queues keeps the invariant when no command is in progress. -/
theorem State.Inv.takeInput {s : State} (hs : s.Inv) (hb : s.busy = none) : s.takeInput.Inv where
  iq := Nat.zero_le _
  oq := Nat.zero_le _
  hash := hs.hash
  cipher := hs.cipher
  busy := by simp [hb]

/-- Ending a command with an error keeps the invariant, which does not speak of RESULT and RNGERR. -/
theorem State.Inv.raise {s : State} (hs : s.Inv) (f : Failure) : (s.raise f).Inv where
  iq := hs.iq
  oq := hs.oq
  hash := hs.hash
  cipher := hs.cipher
  busy := fun inp hb =>
    let hw := hs.busy inp hb
    ⟨hw.long, hw.short, hw.valid, hw.iq, hw.oq, hw.iovf⟩

/-- Taking the host's next access keeps the invariant, which does not speak of the host. -/
theorem State.Inv.withAgenda {s : State} (hs : s.Inv) (rest : List HostAction) : (s.withAgenda rest).Inv where
  iq := hs.iq
  oq := hs.oq
  hash := hs.hash
  cipher := hs.cipher
  busy := fun inp hb =>
    let hw := hs.busy inp hb
    ⟨hw.long, hw.short, hw.valid, hw.iq, hw.oq, hw.iovf⟩

/-- A push never exceeds the capacity of the input queue (R44, R53). -/
theorem State.Inv.push {s : State} (hs : s.Inv) (hb : s.busy = none) (b : Byte) : (s.push b).Inv where
  iq := by
    unfold State.push
    split
    · simp; omega
    · exact hs.iq
  oq := by simpa using hs.oq
  hash := by simpa using hs.hash
  cipher := by simpa using hs.cipher
  busy := by simp [hb]

/-- A read never lengthens the output queue (R45, R52). -/
theorem State.Inv.hostRead {s : State} (hs : s.Inv) (hb : s.busy = none) (r : HostReg) : (s.hostRead r).Inv where
  iq := by simpa using hs.iq
  oq := by
    have := hs.oq
    rw [State.hostRead_eq]
    dsimp only
    split
    · simp; omega
    · exact this
  hash := by simpa using hs.hash
  cipher := by simpa using hs.cipher
  busy := by simp [hb]

/-- The output of every command fits: OQ_BYTES exceeds IQ_BYTES by 33, and IQ_BYTES is at least 256 (R9, R54). -/
theorem outputBound_le_oqBytes {n : Nat} (h : n ≤ Config.iqBytes) : max 96 (n + 33) ≤ Config.oqBytes := by
  unfold Config.oqBytes
  unfold Config.iqBytes at h ⊢
  omega

/-- The outcome of a data command on an input that fits the input queue, from a state the wrapper has prepared, keeps
the invariant: each of its three ends by what `op_spec` says of the answer. -/
theorem State.Inv.apply {s : State} (hs : s.Inv) (hb : s.busy = none) (hiq : s.iq = []) (hoq : s.oq = [])
    (hv : s.iovf = false) {i : Instr} {op : Op} (hop : dataOp i = some op) {inp : Bytes}
    (hlen : inp.length ≤ Config.iqBytes) : (s.apply op inp).Inv := by
  have hspec := op_spec i op hop inp s.eng s.rng
  rcases s.apply_cases op inp with ⟨eng, out, hr, ht⟩ | ⟨f, -, ht⟩ | ⟨x, hr, ht⟩
  · rw [hr] at hspec
    obtain ⟨-, -, hhash, hcipher, -, hout⟩ := hspec
    rw [ht]
    exact ⟨hs.iq, hout.trans (outputBound_le_oqBytes hlen), hhash hs.hash, hcipher hs.cipher, by simp [hb]⟩
  · rw [ht]
    exact ⟨hs.iq, hs.oq, hs.hash, hs.cipher, by simp [hb]⟩
  · rw [hr] at hspec
    obtain ⟨-, rfl, hlong, hvalid⟩ := hspec
    rw [ht]
    refine ⟨hs.iq, hs.oq, hs.hash, hs.cipher, fun y hy => ?_⟩
    obtain rfl : x = y := Option.some.inj hy
    exact ⟨hlong, hlen, hvalid, hiq, hoq, hv⟩

/-- Every command keeps the invariant when no command is in progress. -/
theorem State.Inv.exec {s t : State} (hs : s.Inv) (hb : s.busy = none) {i : Instr} (h : exec i s = .next t) :
    t.Inv := by
  have htake := hs.takeInput hb
  rcases exec_cases i s t h with ⟨-, rfl⟩ | ⟨-, rfl⟩ | ⟨-, rfl⟩ | ⟨-, -, rfl⟩ | ⟨-, op, hop, rfl⟩
  · exact hs
  · exact s.resetCore_inv
  · exact ⟨htake.iq, htake.oq, htake.hash, htake.cipher, by simp [hb]⟩
  · exact htake.raise _
  · exact htake.apply hb rfl rfl rfl hop hs.iq

/-- A later pass of SM2.ENC's loop keeps the invariant: the input it holds still fits the input queue (R233). -/
theorem State.Inv.retryPass {s : State} (hs : s.Inv) {inp : Bytes} (hb : s.busy = some inp) :
    (retryPass inp s).Inv := by
  have hw := hs.busy inp hb
  have hclear : State.Inv { s with busy := none } := ⟨hs.iq, hs.oq, hs.hash, hs.cipher, fun _ h => nomatch h⟩
  exact hclear.apply rfl hw.iq hw.oq hw.iovf (i := .sm2Enc) rfl hw.short

/-- Settles O25: each of the things a step can do (`stepsTo_of_step`) keeps the invariant. -/
theorem everyStepKeepsTheInvariant : Obligations.EveryStepKeepsTheInvariant := by
  unfold Obligations.EveryStepKeepsTheInvariant
  intro s t hs h
  cases stepsTo_of_step s t h with
  | reset rest _ ht => exact ht ▸ State.resetCore_inv _
  | pass inp hb ht => exact ht ▸ hs.retryPass hb
  | command w i rest hb _ _ hexec => exact (hs.withAgenda rest).exec hb hexec
  | illegal rest hb ht => exact ht ▸ ((hs.withAgenda rest).takeInput hb).raise _
  | push b rest hb ht => exact ht ▸ (hs.withAgenda rest).push hb b
  | ignored rest ht => exact ht ▸ hs.withAgenda rest
  | read r rest hb ht => exact ht ▸ (hs.withAgenda rest).hostRead hb r
  | idle ht => exact ht ▸ hs

end Sys2Proof.Machine

/-!
PROOF. Decoding and encoding are inverse to each other (30_encoding.md R70, R72), with the statements about the words
of commands (O1 to O3).
-/

namespace Sys2Proof.Machine

/-- The opcode map read back: the opcode of a command stands in the command's row (R72). -/
theorem decodeOpcode_opcode (i : Instr) : decodeOpcode (opcode i) = some i := by
  cases i <;> rfl

/-- No opcode but a command's own stands in the command's row (R72). -/
theorem opcode_of_decodeOpcode (o : Byte) (i : Instr) (h : decodeOpcode o = some i) : opcode i = o := by
  unfold decodeOpcode at h
  split at h
  case h_18 => cases h
  all_goals
    rename_i hrow
    obtain rfl := Option.some.inj h
    exact (BitVec.eq_of_toNat_eq hrow).symm

/-- A word decodes to a command exactly when RSV is zero and OPC stands in the command's row (R70, R72). -/
theorem decode_ok_iff (w : Word) (i : Instr) :
    decode w = .ok i ↔ rsvField w = 0#24 ∧ decodeOpcode (opcField w) = some i := by
  unfold decode
  split
  · next hrsv => cases decodeOpcode (opcField w) <;> simp [hrsv]
  · next hrsv => simp [hrsv]

theorem encode_toNat (i : Instr) : (encode i).toNat = (opcode i).toNat :=
  BitVec.toNat_setWidth_of_le (by decide)

/-- Settles O1: the command's word has RSV zero and the command's opcode as OPC, which its row gives back. -/
theorem encodedCommandDecodesToItself : Obligations.EncodedCommandDecodesToItself := by
  unfold Obligations.EncodedCommandDecodesToItself
  intro i _
  have hlt := (opcode i).isLt
  have hopc : opcField (encode i) = opcode i := by
    apply BitVec.eq_of_toNat_eq
    rw [opcField_toNat, encode_toNat, Nat.mod_eq_of_lt hlt]
  rw [decode_ok_iff, rsvField_eq_zero_iff, encode_toNat, hopc]
  exact ⟨Nat.div_eq_of_lt hlt, decodeOpcode_opcode i⟩

/-- Settles O2: RSV is zero, so the word is its OPC, and OPC is the command's opcode (`opcode_of_decodeOpcode`). -/
theorem decodedWordIsTheCommandsOnlyWord : Obligations.DecodedWordIsTheCommandsOnlyWord := by
  unfold Obligations.DecodedWordIsTheCommandsOnlyWord
  intro w i h
  obtain ⟨hrsv, hopc⟩ := (decode_ok_iff w i).mp h
  rw [rsvField_eq_zero_iff] at hrsv
  apply BitVec.eq_of_toNat_eq
  rw [encode_toNat, opcode_of_decodeOpcode _ i hopc, opcField_toNat]
  omega

/-- Settles O3: each row's word is the word of its command, which decodes to the command (O1). -/
theorem opcodeMapWordsDecode : Obligations.OpcodeMapWordsDecode :=
  have hdecode (i : Instr) : decode (encode i) = .ok i := encodedCommandDecodesToItself i rfl
  ⟨hdecode .sysNop, hdecode .sysSrst, hdecode .sysFlush, hdecode .sm3Init, hdecode .sm3Write, hdecode .sm3Sum,
    hdecode .sm3Hash, hdecode .sm4Setkey, hdecode .sm4Enc, hdecode .sm4Dec, hdecode .sm4EcbEnc, hdecode .sm4EcbDec,
    hdecode .sm4CbcEnc, hdecode .sm4CbcDec, hdecode .sm2Keygen, hdecode .sm2Enc, hdecode .sm2Dec⟩

end Sys2Proof.Machine

/-!
PROOF. Single steps and runs of the port (20_memory.md R51; 70_reset_and_hazards.md R300, R304): a command word, a
sequence of pushes, a hardware reset, and that no step stops the machine (O5, O9 to O11, O15).
-/

namespace Sys2Proof.Machine

/-- Settles O5: the step is the write of CMD (`step_write`), which executes the word's command. -/
theorem stepRunsTheDecodedCommand : Obligations.StepRunsTheDecodedCommand := by
  unfold Obligations.StepRunsTheDecodedCommand
  intro s w i rest hb ha hd
  rw [step_write s .cmd w rest hb ha, hostWrite_cmd, execWord_of_ok w i _ hd]
  rfl

/-- Every command has a next state: a system command by its equation, a data command by the wrapper (R71). -/
theorem exists_exec_eq_next (i : Instr) (s : State) : ∃ t, exec i s = .next t := by
  cases hop : dataOp i with
  | some op => exact ⟨_, exec_of_dataOp i op hop s⟩
  | none =>
    cases i <;> simp only [dataOp, reduceCtorEq] at hop
    · exact ⟨_, exec_sysNop s⟩
    · exact ⟨_, exec_sysSrst s⟩
    · exact ⟨_, exec_sysFlush s⟩

/-- Settles O15: every kind of step (`step_cases`) and of write (`hostWrite_cases`) names its next state, a command's
by `exists_exec_eq_next`. -/
theorem everyStepHasANextState : Obligations.EveryStepHasANextState := by
  unfold Obligations.EveryStepHasANextState
  intro s
  rcases step_cases s with
    ⟨rest, -, hs⟩ | ⟨inp, -, hs⟩ | ⟨r, v, rest, -, -, hs⟩ | ⟨r, rest, -, -, hs⟩ | ⟨-, -, hs⟩
  · exact ⟨_, hs⟩
  · exact ⟨_, hs⟩
  · rw [hs]
    rcases hostWrite_cases r v (s.withAgenda rest) with ⟨i, -, -, hw⟩ | ⟨e, -, -, hw⟩ | ⟨-, hw⟩ | ⟨-, -, hw⟩
    · rw [hw]
      exact exists_exec_eq_next i _
    all_goals exact ⟨_, hw⟩
  · exact ⟨_, hs⟩
  · exact ⟨_, hs⟩

/-- A run of one step more goes on from the next state. -/
theorem run_succ_of_step (n : Nat) (s t : State) (h : step s = .next t) : run (n + 1) s = run n t := by
  simp only [run, h]

/-- A run of at least one step depends on its first state only through the step made there. -/
theorem run_succ_congr (n : Nat) (s t : State) (h : step s = step t) : run (n + 1) s = run (n + 1) t := by
  simp only [run, h]

/-- A write of DIN with room in the input queue appends its byte, which the host writes zero-extended (R44, R86). -/
theorem step_push (s : State) (b : Byte) (rest : List HostAction) (hb : s.busy = none)
    (ha : s.host.agenda = .write .din (b.setWidth 32) :: rest) (hroom : s.iq.length < Config.iqBytes) :
    step s = .next { s with iq := s.iq ++ [b], host := { s.host with agenda := rest } } := by
  rw [step_write s .din _ rest hb ha, hostWrite_din, State.push_of_lt (s.withAgenda rest) _ hroom,
    BitVec.setWidth_setWidth_of_le _ (by decide), BitVec.setWidth_eq]
  rfl

/-- Settles O9, by induction on the pushed bytes, one step each (`step_push`). -/
theorem pushedBytesJoinTheInputInOrder : Obligations.PushedBytesJoinTheInputInOrder := by
  unfold Obligations.PushedBytesJoinTheInputInOrder
  intro bs
  induction bs with
  | nil =>
    intro s rest _ ha _
    obtain rfl : s.host.agenda = rest := ha
    simp [run]
  | cons b bs ih =>
    intro s rest hb ha hroom
    rw [List.length_cons] at hroom ⊢
    rw [run_succ_of_step _ _ _ (step_push s b (pushActions bs ++ rest) hb ha (by omega))]
    have hrest := ih { s with iq := s.iq ++ [b], host := { s.host with agenda := pushActions bs ++ rest } } rest hb rfl
      (by simp; omega)
    simpa using hrest

/-- Settles O10: the reset state is a literal. -/
theorem resetValuesOfTheCore : Obligations.ResetValuesOfTheCore :=
  ⟨rfl, Vector.toList_replicate, rfl, rfl, rfl, rfl, rfl, rfl, rfl, rfl⟩

/-- Every register of the core at its reset values reads 0 (R300). -/
theorem State.readValue_resetCore (s : State) (r : HostReg) : s.resetCore.readValue r = 0 := by
  cases r
  case status => exact s.resetCore.readValue_status
  all_goals rfl

/-- Settles O11: the step is the reset (`step_reset`), whose state names every element's value; a read then returns 0
(`State.readValue_resetCore`) and finds no byte to remove. -/
theorem hardwareResetGivesTheResetValues : Obligations.HardwareResetGivesTheResetValues := by
  unfold Obligations.HardwareResetGivesTheResetValues
  intro s rest ha
  refine ⟨_, step_reset s rest ha, rfl, rfl, rfl, rfl, rfl, rfl, rfl, rfl, rfl, rfl, rfl, rfl, rfl, fun r more => ?_⟩
  have hread : (((s.withAgenda rest).resetCore.withProgram (.read r :: more)).withAgenda more).readValue r = 0 :=
    State.readValue_resetCore (s.withProgram more) r
  rw [step_read _ r more rfl rfl, State.hostRead_eq, hread]
  simp

end Sys2Proof.Machine

/-!
PROOF. What a command may fail with, draw and change (60_exceptions.md R281, R283, R288, R294; 10_state.md R26, R27):
what the semantic functions do with the random source, what a later pass of SM2.ENC's loop can do, and the statements
drawn from them and from `exec_cases` and `op_spec` (O17 to O23, O26).
-/

namespace Sys2Proof.Machine

/-- A command has E_RNG in its row of R283 only if it draws (R283, R294). -/
theorem rng_not_mem_errorCodes (i : Instr) (hu : i.usesRng = false) : ResultCode.rng ∉ i.errorCodes := by
  cases i
  case sm4CbcEnc | sm2Keygen | sm2Enc => cases hu
  all_goals decide

/-- What a data command does with the random source: nothing, and then it does not end with E_RNG; or one draw, made
by one of three commands when its earlier checks have passed, and then its answer is that to the draw (R294). -/
theorem op_draw_cases (i : Instr) (op : Op) (hop : dataOp i = some op) (inp : Bytes) (eng : Engine) (rng : Rng) :
    ((op inp eng rng).2 = rng ∧ ∀ f, (op inp eng rng).1 = .fail f → f.code ≠ .rng) ∨
    (i = .sm4CbcEnc ∧ eng.c.keyv = true ∧ op inp eng rng = (cbcEncResult eng inp rng.drawIv.1, rng.drawIv.2)) ∨
    (i = .sm2Keygen ∧ op inp eng rng = (keygenResult eng rng.drawScalar.1, rng.drawScalar.2)) ∨
    (i = .sm2Enc ∧ 64 ≤ inp.length ∧ onCurve (encQx inp) (encQy inp) = true ∧
      op inp eng rng = (encResult eng inp rng.drawScalar.1, rng.drawScalar.2)) := by
  cases hu : i.usesRng with
  | false =>
    have hspec := op_spec i op hop inp eng rng
    refine .inl ⟨op_rng i op hop hu inp eng rng, fun f hf hcode => rng_not_mem_errorCodes i hu ?_⟩
    rw [hf] at hspec
    exact hcode ▸ hspec.1
  | true =>
    cases i
    case sm4CbcEnc =>
      cases hop
      cases hk : eng.c.keyv with
      | false => exact .inl (by simp [opSm4CbcEnc, hk, Failure.code])
      | true => exact .inr (.inl (by simp [opSm4CbcEnc, hk]))
    case sm2Keygen =>
      cases hop
      exact .inr (.inr (.inl ⟨rfl, rfl⟩))
    case sm2Enc =>
      cases hop
      by_cases hlen : inp.length < 64
      · exact .inl (by simp [opSm2Enc, hlen, Failure.code])
      · cases hc : onCurve (encQx inp) (encQy inp) with
        | false => exact .inl (by simp [opSm2Enc, hlen, hc, Failure.code])
        | true => exact .inr (.inr (.inr ⟨rfl, by omega, rfl, opSm2Enc_of_valid inp eng rng (by omega) hc⟩))
    all_goals cases hu

/-- A command that ends with E_RNG has made a draw that failed, and RNGERR takes the code of that draw (R281). -/
theorem op_fail_rng (i : Instr) (op : Op) (hop : dataOp i = some op) (inp : Bytes) (eng : Engine) (rng : Rng)
    (f : Failure) (hf : (op inp eng rng).1 = .fail f) (hcode : f.code = .rng) (old : Word) :
    rng.drawIv = (.fail (f.rngerr old), (op inp eng rng).2) ∨
    rng.drawScalar = (.fail (f.rngerr old), (op inp eng rng).2) := by
  rcases op_draw_cases i op hop inp eng rng with ⟨-, hne⟩ | ⟨-, -, h⟩ | ⟨-, h⟩ | ⟨-, -, -, h⟩
  · exact absurd hcode (hne f hf)
  · rw [h] at hf ⊢
    left
    cases ha : rng.drawIv.1 with
    | fail code => rw [ha] at hf; cases hf; exact Prod.ext ha rfl
    | ok iv => rw [ha] at hf; cases hf
  · rw [h] at hf ⊢
    right
    cases ha : rng.drawScalar.1 with
    | fail code => rw [ha] at hf; cases hf; exact Prod.ext ha rfl
    | ok d => rw [ha] at hf; cases hf
  · rw [h] at hf ⊢
    right
    rcases encResult_cases eng inp rng.drawScalar.1 with ⟨code, ha, he⟩ | ⟨k, -, -, he⟩ | ⟨k, out, -, -, he⟩ <;>
      rw [he] at hf <;> cases hf
    exact Prod.ext ha rfl

/-- With a command in progress the queues and IOVF are already as the wrapper leaves them (R71). -/
theorem State.BusyWf.clear_eq {s : State} {inp : Bytes} (hw : s.BusyWf inp) :
    { s with iq := [], oq := [], iovf := false } = s := by
  obtain ⟨-, -, -, hiq, hoq, hv⟩ := hw
  cases s
  cases hiq
  cases hoq
  cases hv
  rfl

/-- What a later pass of SM2.ENC's loop can do, with its one draw: end with E_RNG, go on, or complete (R233). -/
theorem step_busy_cases (inp : Bytes) (s t : State) (hb : s.busy = some inp) (hw : s.BusyWf inp)
    (hr : ∀ rest, s.host.agenda ≠ .reset :: rest) (h : step s = .next t) :
    (t = { s with
        iq := [], oq := [], iovf := false, busy := none, result := .rng, rngerr := t.rngerr, rng := t.rng } ∧
      s.rng.drawScalar = (.fail t.rngerr, t.rng)) ∨
    (t.rng = s.rng.drawScalar.2 ∧ t.busy = some inp) ∨
    (t.rng = s.rng.drawScalar.2 ∧ t.busy = none ∧ t.result = .ok) := by
  rw [step_busy s inp hb hr, retryPass_eq inp s hw] at h
  cases h
  rcases encResult_cases s.eng inp s.rng.drawScalar.1 with ⟨code, ha, he⟩ | ⟨k, -, -, he⟩ | ⟨k, out, -, -, he⟩ <;>
    rw [he]
  · refine .inl ⟨?_, Prod.ext ha rfl⟩
    conv_lhs => rw [← hw.clear_eq]
    rfl
  · exact .inr (.inl ⟨rfl, rfl⟩)
  · exact .inr (.inr ⟨rfl, rfl, rfl⟩)

/-- Settles O17: of a command's possible ends (`exec_cases`, `State.apply_cases`) those with an error are the wrapper's
and a failure's, whose code goes to RNGERR only after a failed draw (`op_fail_rng`); a later pass fails only by its
draw (`step_busy_cases`). -/
theorem failingCommandChangesNothingElse : Obligations.FailingCommandChangesNothingElse := by
  unfold Obligations.FailingCommandChangesNothingElse
  refine ⟨fun i s t h hnop hb htb hne => ?_, fun inp s t hb hw hr h htb hne => ?_⟩
  · rcases exec_cases i s t h with ⟨rfl, -⟩ | ⟨-, rfl⟩ | ⟨-, rfl⟩ | ⟨-, -, rfl⟩ | ⟨-, op, hop, rfl⟩
    · exact absurd rfl hnop
    · exact absurd rfl hne
    · exact absurd rfl hne
    · exact ⟨rfl, fun _ => rfl, fun hrng => nomatch hrng⟩
    · rcases s.takeInput.apply_cases op s.iq with ⟨eng, out, -, ht⟩ | ⟨f, hf, ht⟩ | ⟨x, -, ht⟩ <;> rw [ht] at hne htb ⊢
      · exact absurd rfl hne
      · exact ⟨rfl, fun hcode => f.rngerr_of_code_ne hcode s.rngerr,
          fun hcode => op_fail_rng i op hop s.iq s.eng s.rng f hf hcode s.rngerr⟩
      · cases htb
  · rcases step_busy_cases inp s t hb hw hr h with hfail | ⟨-, htb'⟩ | ⟨-, -, hok⟩
    · exact hfail
    · rw [htb'] at htb
      cases htb
    · exact absurd hok hne

/-- Settles O18: the same ends, a failure's code being in the command's row by `op_spec`. -/
theorem commandGivesOnlyItsOwnCodes : Obligations.CommandGivesOnlyItsOwnCodes := by
  unfold Obligations.CommandGivesOnlyItsOwnCodes
  refine ⟨fun i s t h hb htb => ?_, fun inp s t hb hw hr h htb => ?_⟩
  · rcases exec_cases i s t h with ⟨rfl, rfl⟩ | ⟨rfl, rfl⟩ | ⟨rfl, rfl⟩ | ⟨hi, hv, rfl⟩ | ⟨-, op, hop, rfl⟩
    · exact .inl ⟨rfl, rfl⟩
    · exact .inr (.inl ⟨by decide, rfl⟩)
    · exact .inr (.inl ⟨by decide, rfl⟩)
    · exact .inr (.inr (.inl ⟨hi, hv, rfl⟩))
    · have hspec := op_spec i op hop s.iq s.takeInput.eng s.takeInput.rng
      rcases s.takeInput.apply_cases op s.iq with ⟨eng, out, -, ht⟩ | ⟨f, hf, ht⟩ | ⟨x, -, ht⟩ <;> rw [ht] at htb ⊢
      · refine .inr (.inl ⟨?_, rfl⟩)
        rintro rfl
        cases hop
      · rw [hf] at hspec
        exact .inr (.inr (.inr hspec.1))
      · cases htb
  · rcases step_busy_cases inp s t hb hw hr h with ⟨ht, -⟩ | ⟨-, htb'⟩ | ⟨-, -, hok⟩
    · exact .inr (congrArg State.result ht)
    · rw [htb'] at htb
      cases htb
    · exact .inl hok

/-- Settles O19: only a data command's semantic function reaches the random source, and `op_draw_cases` says which of
them draw and after which checks. -/
theorem drawsOnlyAfterTheChecksOfThreeCommands : Obligations.DrawsOnlyAfterTheChecksOfThreeCommands := by
  unfold Obligations.DrawsOnlyAfterTheChecksOfThreeCommands
  refine ⟨fun i s t h hne => ?_, fun inp s t hb hw hr h => ?_⟩
  · rcases exec_cases i s t h with ⟨-, rfl⟩ | ⟨-, rfl⟩ | ⟨-, rfl⟩ | ⟨-, -, rfl⟩ | ⟨hv, op, hop, rfl⟩
    · exact absurd rfl hne
    · exact absurd rfl hne
    · exact absurd rfl hne
    · exact absurd rfl hne
    · rw [State.apply_rng] at hne ⊢
      rcases op_draw_cases i op hop s.iq s.takeInput.eng s.takeInput.rng with
        ⟨hrng, -⟩ | ⟨hi, hk, ha⟩ | ⟨hi, ha⟩ | ⟨hi, hlen, hc, ha⟩
      · exact absurd hrng hne
      · exact ⟨by rw [ha]; exact Rng.drawIv_draws _, hv, .inl ⟨hi, hk⟩⟩
      · exact ⟨by rw [ha]; exact Rng.drawScalar_draws _, hv, .inr (.inl hi)⟩
      · exact ⟨by rw [ha]; exact Rng.drawScalar_draws _, hv, .inr (.inr ⟨hi, hlen, hc⟩)⟩
  · have hrng : t.rng = s.rng.drawScalar.2 := by
      rcases step_busy_cases inp s t hb hw hr h with ⟨-, hd⟩ | ⟨hd, -⟩ | ⟨hd, -⟩
      · rw [hd]
      · exact hd
      · exact hd
    exact ⟨hrng, hrng ▸ s.rng.drawScalar_draws⟩

/-- SM2.ENC's answer to a draw on an input that meets its two checks (R233). -/
theorem opSm2Enc_of_draw (inp : Bytes) (eng : Engine) (rng : Rng) (hlen : 64 ≤ inp.length)
    (hc : onCurve (encQx inp) (encQy inp) = true) (a : RngAnswer Scalar) (r : Rng) (hd : rng.drawScalar = (a, r)) :
    opSm2Enc inp eng rng = (encResult eng inp a, r) := by
  rw [opSm2Enc_of_valid inp eng rng hlen hc, hd]

/-- Settles O20: SM4.CBC.ENC and SM2.KEYGEN by their own statements (O46, O55), SM2.ENC by its answer to the draw, in
the command's first step and in a later one. -/
theorem failedDrawIsPassedOnVerbatim : Obligations.FailedDrawIsPassedOnVerbatim := by
  unfold Obligations.FailedDrawIsPassedOnVerbatim
  intro s code r
  refine ⟨fun hv hk hd => ?_, fun hv hd => ?_, fun hv hlen hc hd => ?_, fun inp hb hw hr hd => ?_⟩
  · obtain ⟨-, hfail, -⟩ := cbcEncryptCompletes s hv
    exact hfail hk code r hd
  · obtain ⟨hfail, -⟩ := keygenGivesTheScalarAndItsPoint s r hv
    exact hfail code hd
  · exact exec_of_answer .sm2Enc opSm2Enc rfl s hv _ r (opSm2Enc_of_draw _ _ _ hlen hc _ r hd)
  · rw [step_busy s inp hb hr, retryPass_eq inp s hw, hd]
    rfl

/-- A command other than SYS.SRST changes the engine state only by succeeding as a data command (R16, R71). -/
theorem exec_eng_cases (i : Instr) (s t : State) (h : exec i s = .next t) :
    i = .sysSrst ∨ t.eng = s.eng ∨
    (t.result = .ok ∧ ∃ op out, dataOp i = some op ∧ (op s.iq s.eng s.rng).1 = .ok t.eng out) := by
  rcases exec_cases i s t h with ⟨-, rfl⟩ | ⟨hi, -⟩ | ⟨-, rfl⟩ | ⟨-, -, rfl⟩ | ⟨-, op, hop, rfl⟩
  · exact .inr (.inl rfl)
  · exact .inl hi
  · exact .inr (.inl rfl)
  · exact .inr (.inl rfl)
  · rcases s.takeInput.apply_cases op s.iq with ⟨eng, out, hr, ht⟩ | ⟨f, -, ht⟩ | ⟨x, -, ht⟩ <;> rw [ht]
    · exact .inr (.inr ⟨rfl, op, out, hop, hr⟩)
    · exact .inr (.inl rfl)
    · exact .inr (.inl rfl)

/-- Settles O21: a success changes the hash context only in SM3.INIT and SM3.WRITE (`op_spec`). -/
theorem onlyThreeCommandsTouchTheHashContext : Obligations.OnlyThreeCommandsTouchTheHashContext := by
  unfold Obligations.OnlyThreeCommandsTouchTheHashContext
  intro i s t h hne
  rcases exec_eng_cases i s t h with rfl | heng | ⟨-, op, out, hop, hr⟩
  · decide
  · exact absurd (congrArg Engine.h heng) hne
  · have hspec := op_spec i op hop s.iq s.eng s.rng
    rw [hr] at hspec
    obtain ⟨hhash, -⟩ := hspec
    by_contra hi
    simp only [List.mem_cons, List.not_mem_nil, or_false, not_or] at hi
    obtain ⟨hinit, hwrite, -⟩ := hi
    exact hne (hhash hinit hwrite)

/-- SM4.SETKEY succeeds only by loading the schedule of its input into C (R150). -/
theorem opSm4Setkey_ok (inp : Bytes) (eng eng' : Engine) (rng : Rng) (out : Bytes)
    (h : (opSm4Setkey inp eng rng).1 = .ok eng' out) : eng'.c = Cipher.ofKey inp := by
  simp only [opSm4Setkey] at h
  split at h <;> cases h
  rfl

/-- Settles O22: a success changes C only in SM4.SETKEY (`op_spec`), which loads a key and sets KEYV. -/
theorem onlyTwoCommandsTouchTheCipherInstance : Obligations.OnlyTwoCommandsTouchTheCipherInstance := by
  unfold Obligations.OnlyTwoCommandsTouchTheCipherInstance
  intro i s t h hne
  rcases exec_eng_cases i s t h with hi | heng | ⟨hok, op, out, hop, hr⟩
  · exact .inl hi
  · exact absurd (congrArg Engine.c heng) hne
  · have hspec := op_spec i op hop s.iq s.eng s.rng
    rw [hr] at hspec
    obtain ⟨-, hcipher, -⟩ := hspec
    obtain rfl : i = .sm4Setkey := not_not.mp fun hi => hne (hcipher hi)
    cases hop
    exact .inr ⟨rfl, hok, by rw [opSm4Setkey_ok _ _ _ _ _ hr, Cipher.ofKey_keyv]⟩

/-- A data command's outcome leaves KEYV set (R27). -/
theorem State.apply_keyv (s : State) (i : Instr) (op : Op) (hop : dataOp i = some op) (inp : Bytes)
    (hk : s.eng.c.keyv = true) : (s.apply op inp).eng.c.keyv = true := by
  have hspec := op_spec i op hop inp s.eng s.rng
  rcases s.apply_cases op inp with ⟨eng, out, hr, ht⟩ | ⟨f, -, ht⟩ | ⟨x, -, ht⟩ <;> rw [ht]
  · rw [hr] at hspec
    obtain ⟨-, -, -, -, hkeyv, -⟩ := hspec
    exact hkeyv hk
  · exact hk
  · exact hk

/-- A command other than SYS.SRST leaves KEYV set (R27). -/
theorem exec_keyv (i : Instr) (s t : State) (h : exec i s = .next t) (hi : i ≠ .sysSrst)
    (hk : s.eng.c.keyv = true) : t.eng.c.keyv = true := by
  rcases exec_cases i s t h with ⟨-, rfl⟩ | ⟨hsrst, -⟩ | ⟨-, rfl⟩ | ⟨-, -, rfl⟩ | ⟨-, op, hop, rfl⟩
  · exact hk
  · exact absurd hsrst hi
  · exact hk
  · exact hk
  · exact State.apply_keyv _ i op hop _ hk

/-- Settles O23: of the things a step can do (`stepsTo_of_step`) only a reset and a command reach KEYV, no command but
SYS.SRST clears it (`exec_keyv`), and SYS.SRST has one word (O2). -/
theorem keyValidFlagIsClearedOnlyByReset : Obligations.KeyValidFlagIsClearedOnlyByReset := by
  unfold Obligations.KeyValidFlagIsClearedOnlyByReset
  intro s t h hk hclear
  by_contra hreset
  obtain ⟨hnoreset, hnosrst⟩ := not_or.mp hreset
  refine Bool.false_ne_true (hclear.symm.trans ?_)
  cases stepsTo_of_step s t h with
  | reset rest ha _ => exact absurd ⟨rest, ha⟩ hnoreset
  | pass inp _ ht => exact ht ▸ State.apply_keyv _ .sm2Enc opSm2Enc rfl inp hk
  | command w i rest _ ha hd hexec =>
    refine exec_keyv i _ t hexec (fun hi => hnosrst ⟨rest, ?_⟩) hk
    rw [ha, ← decodedWordIsTheCommandsOnlyWord w i hd, hi]
    rfl
  | illegal rest _ ht => exact ht ▸ hk
  | push b rest _ ht => simpa [ht] using hk
  | ignored rest ht => exact ht ▸ hk
  | read r rest _ ht => simpa [ht] using hk
  | idle ht => exact ht ▸ hk

/-- Settles O26: both runs meet the same IOVF, and the semantic function answers the same but for the engine state it
hands on (`op_withEng`). -/
theorem hashAndSm2ResultsIgnoreTheEngineState : Obligations.HashAndSm2ResultsIgnoreTheEngineState := by
  unfold Obligations.HashAndSm2ResultsIgnoreTheEngineState
  intro i s eng t u hi ht hu
  have hdata : i.isData = true := by
    simp only [List.mem_cons, List.not_mem_nil, or_false] at hi
    rcases hi with rfl | rfl | rfl | rfl <;> rfl
  obtain ⟨op, hop⟩ := exists_dataOp i hdata
  rw [exec_of_dataOp i op hop] at ht hu
  cases hv : s.iovf with
  | true =>
    rw [runCommand_of_iovf op s hv] at ht
    rw [runCommand_of_iovf op { s with eng := eng } hv] at hu
    cases ht
    cases hu
    rfl
  | false =>
    rw [runCommand_of_not_iovf op s hv, State.apply_eq] at ht
    rw [runCommand_of_not_iovf op { s with eng := eng } hv, State.apply_eq] at hu
    cases ht
    cases hu
    simp only [State.takeInput_eng, State.takeInput_rng]
    rw [op_withEng i op hop hi s.iq s.eng eng s.rng]
    cases (op s.iq s.eng s.rng).1 <;> rfl

end Sys2Proof.Machine

/-!
PROOF. Updating a hash context in chunks (40_sm3_hash.md R110, R116), and the statement about chunks (O34).
-/

namespace Sys2Proof.Machine

theorem HashCtx.update_nil (ctx : HashCtx) : ctx.update [] = ctx := by
  simp [HashCtx.update]

/-- Updating in two parts is updating with the whole (R116). -/
theorem HashCtx.update_append (ctx : HashCtx) (s t : Bytes) : ctx.update (s ++ t) = (ctx.update s).update t := by
  simp only [HashCtx.update, HashCtx.absorb_append, HashCtx.absorb_with_len, List.length_append, BitVec.ofNat_add,
    BitVec.add_assoc]

/-- Updating chunk by chunk is updating with the concatenation, from any context (R116). -/
theorem HashCtx.foldl_update (chunks : List Bytes) (ctx : HashCtx) :
    chunks.foldl HashCtx.update ctx = ctx.update chunks.flatten := by
  induction chunks generalizing ctx with
  | nil => exact ctx.update_nil.symm
  | cons c chunks ih => rw [List.foldl_cons, ih, List.flatten_cons, HashCtx.update_append]

/-- SM3.WRITE commands on the chunks, one after another, update H chunk by chunk and leave IOVF clear (R112). -/
theorem exec_sm3Write_chunks (chunks : List Bytes) (f : Nat → State) (hv : (f 0).iovf = false)
    (hwrite : ∀ (i : Nat) (hi : i < chunks.length), exec .sm3Write { f i with iq := chunks[i] } = .next (f (i + 1))) :
    (f chunks.length).eng.h = chunks.foldl HashCtx.update (f 0).eng.h ∧ (f chunks.length).iovf = false := by
  induction chunks generalizing f with
  | nil => exact ⟨rfl, hv⟩
  | cons c chunks ih =>
    have hfirst : f 1 = _ := Host.Outcome.next.inj
      ((hwrite 0 (Nat.succ_pos _)).symm.trans (sm3WriteUpdatesTheContext { f 0 with iq := c } hv))
    obtain ⟨hctx, hv'⟩ := ih (fun i => f (i + 1)) (by rw [hfirst]) fun i hi => hwrite (i + 1) (Nat.succ_lt_succ hi)
    refine ⟨hctx.trans ?_, hv'⟩
    rw [hfirst, List.foldl_cons]

/-- Settles O34: the chunks are folded into one update (`HashCtx.foldl_update`), in the context itself and in the
commands' states (`exec_sm3Write_chunks`), whose digest SM3.SUM gives. -/
theorem chunkingDoesNotMatter : Obligations.ChunkingDoesNotMatter := by
  unfold Obligations.ChunkingDoesNotMatter
  refine fun chunks => ⟨HashCtx.foldl_update chunks _, fun f hnew hv hwrite => ?_⟩
  obtain ⟨hctx, hv'⟩ := exec_sm3Write_chunks chunks f hv hwrite
  refine ⟨_, sm3SumGivesTheDigestOfTheContext _ hv', ?_⟩
  rw [hctx, hnew, HashCtx.foldl_update, sm3]

end Sys2Proof.Machine

/-!
PROOF. The field functions on reduced numbers and the cases of point addition (43_sm2_field_curve.md R200 to R204, R211,
R212), and the statements about them (O50, O51).
-/

namespace Sys2Proof.Machine

theorem fadd_lt (x y : Nat) : fadd x y < curveP := Nat.mod_lt _ curveP_pos

theorem fsub_lt (x y : Nat) : fsub x y < curveP := Nat.mod_lt _ curveP_pos

theorem fneg_lt (x : Nat) : fneg x < curveP := Nat.mod_lt _ curveP_pos

/-- A sum of two reduced numbers is reduced by subtracting P at most once (R201). -/
theorem fadd_eq_ite (x y : Nat) (hx : x < curveP) (hy : y < curveP) :
    fadd x y = if x + y < curveP then x + y else x + y - curveP := by
  split
  · next h => exact Nat.mod_eq_of_lt h
  · next h =>
    rw [fadd, Nat.mod_eq_sub_mod (Nat.le_of_not_lt h), Nat.mod_eq_of_lt (by omega)]

/-- A difference of two reduced numbers is reduced by adding P at most once (R202). -/
theorem fsub_eq_ite (x y : Nat) (hx : x < curveP) (hy : y < curveP) :
    fsub x y = if y ≤ x then x - y else x + curveP - y := by
  split
  · next h =>
    rw [fsub, Nat.mod_eq_sub_mod (by omega), Nat.mod_eq_of_lt (by omega)]
    omega
  · next h =>
    rw [fsub, Nat.mod_eq_of_lt (by omega)]
    omega

/-- The negative of 0 is 0, that of any other reduced number its difference to P (R202). -/
theorem fneg_eq_ite (x : Nat) (hx : x < curveP) : fneg x = if x = 0 then 0 else curveP - x := by
  split
  · next h => rw [h, fneg, Nat.sub_zero, Nat.mod_self]
  · next h => rw [fneg, Nat.mod_eq_of_lt (by omega)]

theorem fneg_zero : fneg 0 = 0 := fneg_eq_ite 0 curveP_pos

/-- A reduced number plus its negative is 0 (R202). -/
theorem fadd_fneg (x : Nat) (hx : x < curveP) : fadd x (fneg x) = 0 := by
  rw [fadd_eq_ite _ _ hx (fneg_lt x), fneg_eq_ite x hx]
  split_ifs <;> omega

/-- Subtraction undoes addition (R201, R202). -/
theorem fsub_fadd (x y : Nat) (hx : x < curveP) (hy : y < curveP) : fsub (fadd x y) y = x := by
  rw [fsub_eq_ite _ _ (fadd_lt x y) hy, fadd_eq_ite x y hx hy]
  split_ifs <;> omega

/-- Addition undoes subtraction (R201, R202). -/
theorem fadd_fsub (x y : Nat) (hx : x < curveP) (hy : y < curveP) : fadd (fsub x y) y = x := by
  rw [fadd_eq_ite _ _ (fsub_lt x y) hy, fsub_eq_ite x y hx hy]
  split_ifs <;> omega

/-- Subtraction is addition of the negative (R202). -/
theorem fsub_eq_fadd_fneg (x y : Nat) (hx : x < curveP) (hy : y < curveP) : fsub x y = fadd x (fneg y) := by
  rw [fsub_eq_ite x y hx hy, fadd_eq_ite _ _ hx (fneg_lt y), fneg_eq_ite y hy]
  split_ifs <;> omega

/-- Settles O50: the definitions, and the lemmas above on what reducing does. -/
theorem fieldFunctionsAreReduced : Obligations.FieldFunctionsAreReduced := by
  unfold Obligations.FieldFunctionsAreReduced
  intro x y hx hy
  exact ⟨rfl, rfl, fsub_eq_ite x y hx hy, rfl, fneg_zero, finv_of_ne_zero x, fadd_lt x y, fsub_lt x y, fneg_lt x,
    fmul_lt x y, finv_lt x, fsub_fadd x y hx hy, fadd_fsub x y hx hy, fadd_fneg x hx, fsub_eq_fadd_fneg x y hx hy⟩

@[simp] theorem pointAdd_inf_left (q : Point) : pointAdd .inf q = q := by
  cases q <;> rfl

@[simp] theorem pointAdd_inf_right (q : Point) : pointAdd q .inf = q := by
  cases q <;> rfl

@[simp] theorem pointDouble_inf : pointDouble .inf = .inf := pointAdd_inf_left .inf

/-- Two points of one x coordinate whose y coordinates add to 0 add to INF (R211). -/
theorem pointAdd_of_fadd_eq_zero (x y1 y2 : Nat) (h : fadd y1 y2 = 0) :
    pointAdd (.affine x y1) (.affine x y2) = .inf := by
  simp [pointAdd, h]

/-- Other points of one x coordinate add along the tangent (R211). -/
theorem pointAdd_of_fadd_ne_zero (x y1 y2 : Nat) (h : fadd y1 y2 ≠ 0) :
    pointAdd (.affine x y1) (.affine x y2) =
      chord (fmul (fadd (fmul 3 (fmul x x)) curveA) (finv (fmul 2 y1))) x y1 x := by
  simp [pointAdd, h]

/-- Points of different x coordinates add along the chord (R211). -/
theorem pointAdd_of_x_ne (x1 y1 x2 y2 : Nat) (h : x1 ≠ x2) :
    pointAdd (.affine x1 y1) (.affine x2 y2) = chord (fmul (fsub y2 y1) (finv (fsub x2 x1))) x1 y1 x2 := by
  simp [pointAdd, h]

/-- Settles O51: the branches of point addition, with `chord` written out. -/
theorem infinityIsNeutralAndNegativesCancel : Obligations.InfinityIsNeutralAndNegativesCancel := by
  unfold Obligations.InfinityIsNeutralAndNegativesCancel
  refine ⟨fun q => ⟨pointAdd_inf_left q, pointAdd_inf_right q⟩,
    fun x y hy => pointAdd_of_fadd_eq_zero x y _ (fadd_fneg y hy), pointAdd_of_fadd_eq_zero,
    fun x y1 y2 h => ⟨_, _, _, rfl, rfl, rfl, ?_⟩, fun x1 y1 x2 y2 h => ⟨_, _, _, rfl, rfl, rfl, ?_⟩, fun q => rfl,
    pointDouble_inf, fun x => pointAdd_of_fadd_eq_zero x 0 0 (Nat.zero_mod _)⟩
  · rw [pointAdd_of_fadd_ne_zero x y1 y2 h, curveA_eq, chord]
  · rw [pointAdd_of_x_ne x1 y1 x2 y2 h, chord]

end Sys2Proof.Machine

/-!
PROOF. Scalar multiplication by double and add (43_sm2_field_curve.md R213, R214), and the statement about it (O52).
-/

namespace Sys2Proof.Machine

/-- One step of double and add: the double, plus the point if the bit is 1 (R214). -/
def doubleAndAdd (q r : Point) (bit : Bool) : Point :=
  if bit then pointAdd (pointDouble r) q else pointDouble r

@[simp] theorem doubleAndAdd_true (q r : Point) : doubleAndAdd q r true = pointAdd (pointDouble r) q := rfl

@[simp] theorem doubleAndAdd_false (q r : Point) : doubleAndAdd q r false = pointDouble r := rfl

theorem scalarMulBits_succ (k : Nat) (q : Point) (n : Nat) (r : Point) :
    scalarMulBits k q (n + 1) r = scalarMulBits k q n (doubleAndAdd q r (k.testBit n)) := rfl

/-- The lowest bit is handled last: n + 1 bits of k are n bits of k / 2 and then bit 0 (R214). -/
theorem scalarMulBits_succ_eq_div_two (k : Nat) (q : Point) (n : Nat) (r : Point) :
    scalarMulBits k q (n + 1) r = doubleAndAdd q (scalarMulBits (k / 2) q n r) (k.testBit 0) := by
  induction n generalizing r with
  | zero => rfl
  | succ n ih => rw [scalarMulBits_succ, ih, Nat.testBit_succ, ← scalarMulBits_succ]

/-- Bits that are 0 keep INF (R214). -/
theorem scalarMulBits_zero_inf (q : Point) (n : Nat) : scalarMulBits 0 q n .inf = .inf := by
  induction n with
  | zero => rfl
  | succ n ih => rw [scalarMulBits_succ, Nat.zero_testBit, doubleAndAdd_false, pointDouble_inf, ih]

/-- A scalar below 2^255 needs only its low 255 bits: the highest keeps INF (R214). -/
theorem scalarMul_eq_of_lt (k : Nat) (q : Point) (hk : k < 2 ^ 255) : scalarMul k q = scalarMulBits k q 255 .inf := by
  rw [scalarMul, scalarMulBits_succ, Nat.testBit_lt_two_pow hk, doubleAndAdd_false, pointDouble_inf]

/-- The scalar with one more low bit (R214). -/
theorem scalarMul_of_div_two (k : Nat) (q : Point) (hk : k / 2 < 2 ^ 255) :
    scalarMul k q = doubleAndAdd q (scalarMul (k / 2) q) (k.testBit 0) := by
  rw [scalarMul, scalarMulBits_succ_eq_div_two, ← scalarMul_eq_of_lt _ _ hk]

theorem scalarMul_two_mul (k : Nat) (q : Point) (hk : k < 2 ^ 255) :
    scalarMul (2 * k) q = pointDouble (scalarMul k q) := by
  have hdiv : 2 * k / 2 = k := by omega
  have hbit : (2 * k).testBit 0 = false := by simp
  rw [scalarMul_of_div_two _ _ (by omega), hdiv, hbit, doubleAndAdd_false]

theorem scalarMul_two_mul_add_one (k : Nat) (q : Point) (hk : k < 2 ^ 255) :
    scalarMul (2 * k + 1) q = pointAdd (pointDouble (scalarMul k q)) q := by
  have hdiv : (2 * k + 1) / 2 = k := by omega
  have hbit : (2 * k + 1).testBit 0 = true := by simp
  rw [scalarMul_of_div_two _ _ (by omega), hdiv, hbit, doubleAndAdd_true]

theorem scalarMul_zero (q : Point) : scalarMul 0 q = .inf := scalarMulBits_zero_inf q 256

/-- Settles O52: the scalar 1 is 0 with one more low bit, and the two laws are `scalarMul_of_div_two` for either bit. -/
theorem scalarMulDoublesAndAdds : Obligations.ScalarMulDoublesAndAdds := by
  unfold Obligations.ScalarMulDoublesAndAdds
  refine fun q => ⟨scalarMul_zero q, ?_, fun k hk => ⟨scalarMul_two_mul k q hk, scalarMul_two_mul_add_one k q hk⟩⟩
  have hone := scalarMul_two_mul_add_one 0 q (by positivity)
  rwa [scalarMul_zero, pointDouble_inf, pointAdd_inf_left] at hone

end Sys2Proof.Machine

/-!
PROOF. SM2.ENC, its retry loop, and SM2.DEC of what it gave (44_sm2_scheme.md R233, R234), with the statements about
them (O56, O57, O59).
-/

namespace Sys2Proof.Machine

/-- A pass of SM2.ENC whose keystream is not all zero gives the ciphertext (R233). -/
theorem encryptWith_of_nonzero (q : Point) (m : Bytes) (k : Nat)
    (h : allZero (keystream (scalarMul k q) m.length) = false) :
    encryptWith q m k = some (ciphertext (scalarMul k baseG).x (scalarMul k baseG).y (tag (scalarMul k q) m)
      (xorBytes m (keystream (scalarMul k q) m.length))) := by
  simp [encryptWith, h]

/-- A pass of SM2.ENC whose keystream is all zero gives nothing (R233). -/
theorem encryptWith_of_allZero (q : Point) (m : Bytes) (k : Nat)
    (h : allZero (keystream (scalarMul k q) m.length) = true) : encryptWith q m k = none := by
  simp [encryptWith, h]

/-- SM2.ENC's answer to a draw whose keystream is not all zero (R233). -/
theorem encResult_of_some (eng : Engine) (inp : Bytes) (k : Scalar) (out : Bytes)
    (h : encryptWith (.affine (encQx inp) (encQy inp)) (encPlain inp) k.val = some out) :
    encResult eng inp (.ok k) = .ok eng out := by
  simp [encResult, h]

/-- SM2.ENC's answer to a draw whose keystream is all zero: one more pass on the same input (R233). -/
theorem encResult_of_none (eng : Engine) (inp : Bytes) (k : Scalar)
    (h : encryptWith (.affine (encQx inp) (encQy inp)) (encPlain inp) k.val = none) :
    encResult eng inp (.ok k) = .retry inp := by
  simp [encResult, h]

/-- Settles O56: SM2.ENC's answer on each side of its two checks, and to a draw whose keystream is not all zero. -/
theorem sm2EncryptCompletes : Obligations.Sm2EncryptCompletes := by
  unfold Obligations.Sm2EncryptCompletes
  refine fun s hv => ⟨fun hlen => ?_, fun hlen hc => ?_, fun hlen hc k r m t sh hd hm hsh ht hnz => ?_⟩
  · exact exec_of_fail .sm2Enc opSm2Enc rfl s hv .invalidKey (by decide) (by simp [opSm2Enc, hlen])
  · have hc' : onCurve (encQx s.iq) (encQy s.iq) = false := hc
    exact exec_of_fail .sm2Enc opSm2Enc rfl s hv .invalidKey (by decide) (by simp [opSm2Enc, hc'])
  · subst hm hsh ht
    rw [exec_of_answer .sm2Enc opSm2Enc rfl s hv _ r (opSm2Enc_of_draw _ _ _ hlen hc _ r hd),
      encResult_of_some _ _ _ _ (encryptWith_of_nonzero _ _ _ hnz)]
    rfl

/-- One pass of the loop from a state with the command in progress: the answer to the draw (R233, R312). -/
theorem step_busy_of_draw (s : State) (inp : Bytes) (hb : s.busy = some inp)
    (hr : ∀ rest, s.host.agenda ≠ .reset :: rest) (hlen : 64 ≤ inp.length)
    (hc : onCurve (encQx inp) (encQy inp) = true) (a : RngAnswer Scalar) (r : Rng) (hd : s.rng.drawScalar = (a, r)) :
    step s = .next (State.finish (encResult s.eng inp a) { s with busy := none, rng := r }) := by
  rw [step_busy s inp hb hr, retryPass, State.apply_eq, opSm2Enc_of_draw inp s.eng s.rng hlen hc a r hd]

/-- From a state with the command in progress the loop takes one step for each draw whose keystream is all zero, and
completes with the first that is not: by induction on the zero draws (R233, R312). -/
theorem run_busy_zeros (inp : Bytes) (hlen : 64 ≤ inp.length) (hc : onCurve (encQx inp) (encQy inp) = true)
    (k : Scalar) (more : List (RngAnswer Scalar)) (out : Bytes)
    (hk : encryptWith (.affine (encQx inp) (encQy inp)) (encPlain inp) k.val = some out) (zeros : List Scalar)
    (hz : ∀ z ∈ zeros, encryptWith (.affine (encQx inp) (encQy inp)) (encPlain inp) z.val = none) (s : State)
    (hb : s.busy = some inp) (hr : ∀ rest, s.host.agenda ≠ .reset :: rest)
    (hd : s.rng.scalars = zeros.map .ok ++ .ok k :: more) :
    run (zeros.length + 1) s = .next { s with
      oq := out, result := .ok, busy := none
      rng := { s.rng with scalars := more, draws := s.rng.draws + zeros.length + 1 } } := by
  induction zeros generalizing s with
  | nil =>
    have hstep := step_busy_of_draw s inp hb hr hlen hc _ _ (Rng.drawScalar_cons _ _ _ hd)
    rw [encResult_of_some _ _ _ _ hk] at hstep
    exact run_succ_of_step 0 _ _ hstep
  | cons z zeros ih =>
    obtain ⟨hz0, hzs⟩ := List.forall_mem_cons.mp hz
    have hstep := step_busy_of_draw s inp hb hr hlen hc _ _ (Rng.drawScalar_cons _ _ _ hd)
    rw [encResult_of_none _ _ _ hz0] at hstep
    rw [List.length_cons, run_succ_of_step _ _ _ hstep]
    have hrest := ih hzs (State.finish (.retry inp) { s with
      busy := none
      rng := { s.rng with scalars := zeros.map .ok ++ .ok k :: more, draws := s.rng.draws + 1 } }) rfl hr rfl
    have hdraws : s.rng.draws + (zeros.length + 1) + 1 = s.rng.draws + 1 + zeros.length + 1 := by omega
    rw [hdraws]
    exact hrest

/-- The first pass of SM2.ENC is a pass of its loop on the input the wrapper took (R71, R233). -/
theorem exec_sm2Enc_eq_step (s : State) (hv : s.iovf = false) (hr : ∀ rest, s.host.agenda ≠ .reset :: rest)
    (hb : s.busy = none) :
    exec .sm2Enc s = step (s.takeInput.finish (.retry s.iq)) := by
  have hclear : { s.takeInput.finish (.retry s.iq) with busy := none } = s.takeInput := by rw [← hb]; rfl
  rw [exec_of_dataOp .sm2Enc opSm2Enc rfl, runCommand_of_not_iovf _ _ hv,
    step_busy (s.takeInput.finish (.retry s.iq)) s.iq rfl hr, retryPass, hclear]

/-- Settles O57: the first pass is a pass of the loop too (`exec_sm2Enc_eq_step`), so the run is that of
`run_busy_zeros`. -/
theorem sm2EncryptRetriesUntilANonzeroKeystream : Obligations.Sm2EncryptRetriesUntilANonzeroKeystream := by
  unfold Obligations.Sm2EncryptRetriesUntilANonzeroKeystream
  intro s zeros k more rest q m hb hv ha hr hlen hc hq hm hd hz hk
  subst hq hm
  have hfirst : step s = step ((s.withAgenda rest).takeInput.finish (.retry s.iq)) := by
    rw [stepRunsTheDecodedCommand s _ .sm2Enc rest hb ha (encodedCommandDecodesToItself .sm2Enc rfl)]
    exact exec_sm2Enc_eq_step (s.withAgenda rest) hv hr hb
  have hrun := run_busy_zeros s.iq hlen hc k more _ (encryptWith_of_nonzero _ _ _ hk) zeros
    (fun z hmem => encryptWith_of_allZero _ _ _ (hz z hmem)) ((s.withAgenda rest).takeInput.finish (.retry s.iq)) rfl
    hr hd
  rw [run_succ_congr _ _ _ hfirst, hrun, ← hb]
  rfl

/-- A coordinate of a point of the curve is a number below 2^256, so its 32 bytes hold it (R13, R210). -/
theorem lt_of_onCurve (x y : Nat) (h : onCurve x y = true) : x < 2 ^ 256 ∧ y < 2 ^ 256 := by
  obtain ⟨hx, hy, -⟩ := (onCurve_iff x y).mp h
  have hP : curveP < 2 ^ 256 := by decide
  exact ⟨hx.trans hP, hy.trans hP⟩

/-- SM2.DEC of a ciphertext gives the plaintext, when the private scalar leads from C1 to the shared point (R234). -/
theorem opSm2Dec_ciphertext (d x1 y1 : Nat) (sh : Point) (m : Bytes) (eng : Engine) (rng : Rng) (hd : d < 2 ^ 256)
    (hc1 : onCurve x1 y1 = true) (hsh : scalarMul d (.affine x1 y1) = sh) (hinf : sh ≠ .inf) :
    opSm2Dec (i2b32 d ++ ciphertext x1 y1 (tag sh m) (xorBytes m (keystream sh m.length))) eng rng =
      (.ok eng m, rng) := by
  obtain ⟨hx, hy⟩ := lt_of_onCurve x1 y1 hc1
  have hcx := ctX_ciphertext x1 y1 (tag sh m) (xorBytes m (keystream sh m.length)) hx
  have hcy := ctY_ciphertext x1 y1 (tag sh m) (xorBytes m (keystream sh m.length)) hy
  have hc2 := ctC2_ciphertext x1 y1 (tag sh m) (xorBytes m (keystream sh m.length)) (tag_length sh m)
  have hc3 := ctC3_ciphertext x1 y1 (tag sh m) (xorBytes m (keystream sh m.length)) (tag_length sh m)
  have hclen : (ciphertext x1 y1 (tag sh m) (xorBytes m (keystream sh m.length))).length - 97 = m.length := by simp
  have hm : m = xorBytes (xorBytes m (keystream sh m.length)) (keystream sh m.length) :=
    (xorBytes_cancel _ _ (by simp)).symm
  rw [opSm2Dec_of_onCurve _ _ _ (by simp; omega) (by rw [decCipher_append]; rfl)
      (by rw [decCipher_append, hcx, hcy, hc1]; decide),
    decCipher_append, decScalar_append _ _ hd, hcx, hcy, hsh,
    decResult_of_ne_inf _ _ m _ hinf (by rw [hc2, hclen]; exact hm), hc3, if_neg (not_not.mpr rfl)]

/-- SM2.DEC completes with the plaintext from a state whose output queue holds the ciphertext, once the private scalar
and that output are its input (R234). -/
theorem exec_sm2Dec_ciphertext (t : State) (hv : t.iovf = false) (d x1 y1 : Nat) (sh : Point) (m : Bytes)
    (hoq : t.oq = ciphertext x1 y1 (tag sh m) (xorBytes m (keystream sh m.length))) (hd : d < 2 ^ 256)
    (hc1 : onCurve x1 y1 = true) (hsh : scalarMul d (.affine x1 y1) = sh) (hinf : sh ≠ .inf) :
    ∃ u, exec .sm2Dec { t with iq := i2b32 d ++ t.oq } = .next u ∧ u.result = .ok ∧ u.oq = m := by
  have hop : opSm2Dec (i2b32 d ++ t.oq) t.eng t.rng = (.ok t.eng m, t.rng) := by
    rw [hoq, opSm2Dec_ciphertext d x1 y1 sh m _ _ hd hc1 hsh hinf]
  exact ⟨_, exec_of_ok .sm2Dec opSm2Dec rfl { t with iq := i2b32 d ++ t.oq } hv t.eng m hop, rfl, rfl⟩

/-- Settles O59: both ways to complete SM2.ENC leave the ciphertext in the output queue, which SM2.DEC turns back
(`exec_sm2Dec_ciphertext`). -/
theorem sm2DecryptUndoesEncrypt : Obligations.Sm2DecryptUndoesEncrypt := by
  unfold Obligations.Sm2DecryptUndoesEncrypt
  intro inp k r d x1 y1 q m hlen hc hq hm hnz hd hc1 hcurve hsh hinf
  subst hq hm
  have henc := encryptWith_of_nonzero _ _ _ hnz
  rw [hc1, Point.x, Point.y] at henc
  generalize hct : ciphertext x1 y1 _ _ = out at henc
  have hout := encryptWith_length _ _ _ _ henc
  have hans (eng : Engine) := encResult_of_some eng inp k _ henc
  have hdec (t : State) (hv : t.iovf = false) (hoq : t.oq = out) :=
    exec_sm2Dec_ciphertext t hv d x1 y1 _ _ (hoq.trans hct.symm) hd hcurve hsh hinf
  refine ⟨fun s hv hiq hdraw => ?_, fun s hb hw hr hdraw => ?_⟩
  · subst hiq
    have hexec := exec_of_answer .sm2Enc opSm2Enc rfl s hv _ r (opSm2Enc_of_draw _ s.eng _ hlen hc _ r hdraw)
    rw [hans] at hexec
    obtain ⟨u, hu⟩ := hdec (State.finish (.ok s.eng out) { s with iq := [], oq := [], iovf := false, rng := r }) rfl rfl
    exact ⟨_, u, hexec, rfl, hout, hu⟩
  · have hstep := step_busy_of_draw s inp hb hr hlen hc _ r hdraw
    rw [hans] at hstep
    obtain ⟨u, hu⟩ := hdec (State.finish (.ok s.eng out) { s with busy := none, rng := r }) hw.iovf rfl
    exact ⟨_, u, hstep, rfl, rfl, hout, hu⟩

end Sys2Proof.Machine
